-- ==== Sys2Proof/Word.lean ====
section
/-! DEFINITION. Words, bytes, the modulus and the fixed sizes of the CORE block (`00_scope.md` R2 to R5). -/

namespace Sys2Proof

/-- A 64-bit word (`00_scope.md` section 5). -/
abbrev Word := BitVec 64

/-- A byte. -/
abbrev Byte := BitVec 8

/-- The prime `p = 2^64 − 2^32 + 1` (`00_scope.md` R2, the decimal spelling). -/
abbrev modulus : Nat := 18446744069414584321

/-- `EPS = 2^64 mod p = 2^32 − 1` (`00_scope.md` R3). -/
abbrev eps : Nat := 4294967295

/-- A field element: an integer in [0, p) (`00_scope.md` section 5). -/
abbrev Felt := Fin modulus

/-- The word that holds a field element. -/
def feltWord (f : Felt) : Word := BitVec.ofNat 64 f.val

/-- A word is canonical when it is less than `p` (`00_scope.md` section 5). -/
abbrev Canonical (w : Word) : Prop := w.toNat < modulus

/-- A vector: 12 words (`00_scope.md` section 5, `WIDTH = 12` in R4). -/
abbrev Lanes := Vector Word 12

/-- `BUFLEN` (`00_scope.md` R4). -/
abbrev bufLen : Nat := 96

/-- `RATE_START` (`00_scope.md` R4). -/
abbrev rateStart : Nat := 32

/-- `RATE_END` (`00_scope.md` R4). -/
abbrev rateEnd : Nat := 96

/-- Forward S-box exponent `ALPHA` (`00_scope.md` R5). -/
abbrev alpha : Nat := 7

/-- Inverse S-box exponent `d = INV_ALPHA` (`00_scope.md` R5). -/
abbrev invAlpha : Nat := 10540996611094048183

end Sys2Proof
end

