-- ==== Sys2Proof/Syntax.lean ====
section
/-! DEFINITION. The commands of CORE-CMD version 1: one constructor per row of spec/opcode_table.json.
A constructor is a command record whose opcode has been read: it carries the record's `ARG` byte and its
payload bytes as they came (`30_encoding.md` R44, R45, R50). For every command but EXTRACT the header's `LEN`
is the number of payload bytes; EXTRACT has no payload and carries `LEN`, the number of bytes wanted.
A command whose `ARG` or `LEN` its format does not allow is still that command: `60_exceptions.md` R101 and R102
make the refusal part of what the command does, so it is checked by the command's meaning. -/

namespace Sys2Proof

/-- The six record formats (`30_encoding.md` R47). -/
inductive Format where
  /-- Format `Z`: no operand. -/
  | noOperand
  /-- Format `S`: two scalar words. -/
  | scalars
  /-- Format `V`: a vector of twelve words. -/
  | vector
  /-- Format `VR`: a vector and a round index in `ARG`. -/
  | vectorRound
  /-- Format `I`: bytes in. -/
  | bytesIn
  /-- Format `X`: bytes out. -/
  | bytesOut
deriving DecidableEq, Repr

/-- The fifteen commands (`30_encoding.md` R48). -/
inductive Instr where
  /-- `FADD`, `0x01` (`40_field.md` R61). -/
  | fadd (arg : Byte) (payload : List Byte)
  /-- `FSUB`, `0x02` (`40_field.md` R63). -/
  | fsub (arg : Byte) (payload : List Byte)
  /-- `FMUL`, `0x03` (`40_field.md` R65). -/
  | fmul (arg : Byte) (payload : List Byte)
  /-- `FRED`, `0x04` (`40_field.md` R67). -/
  | fred (arg : Byte) (payload : List Byte)
  /-- `MDS`, `0x10` (`41_permutation.md` R73). -/
  | mds (arg : Byte) (payload : List Byte)
  /-- `ARK1`, `0x11` (`41_permutation.md` R75). -/
  | ark1 (arg : Byte) (payload : List Byte)
  /-- `ARK2`, `0x12` (`41_permutation.md` R77). -/
  | ark2 (arg : Byte) (payload : List Byte)
  /-- `SBOX`, `0x13` (`41_permutation.md` R79). -/
  | sbox (arg : Byte) (payload : List Byte)
  /-- `ISBOX`, `0x14` (`41_permutation.md` R81). -/
  | isbox (arg : Byte) (payload : List Byte)
  /-- `ROUND`, `0x15` (`41_permutation.md` R83). -/
  | round (arg : Byte) (payload : List Byte)
  /-- `PERM`, `0x16` (`41_permutation.md` R85). -/
  | perm (arg : Byte) (payload : List Byte)
  /-- `INIT`, `0x20` (`42_sponge.md` R88). -/
  | init (arg : Byte) (payload : List Byte)
  /-- `INJECT`, `0x21` (`42_sponge.md` R89). -/
  | inject (arg : Byte) (payload : List Byte)
  /-- `FLIP`, `0x22` (`42_sponge.md` R91). -/
  | flip (arg : Byte) (payload : List Byte)
  /-- `EXTRACT`, `0x23` (`42_sponge.md` R92). -/
  | extract (arg : Byte) (len : BitVec 16)
deriving DecidableEq, Repr

/-- The format of a command (`30_encoding.md` R48). -/
def Instr.format : Instr → Format
  | .fadd .. => .scalars
  | .fsub .. => .scalars
  | .fmul .. => .scalars
  | .fred .. => .scalars
  | .mds .. => .vector
  | .ark1 .. => .vectorRound
  | .ark2 .. => .vectorRound
  | .sbox .. => .vector
  | .isbox .. => .vector
  | .round .. => .vectorRound
  | .perm .. => .vector
  | .init .. => .noOperand
  | .inject .. => .bytesIn
  | .flip .. => .noOperand
  | .extract .. => .bytesOut

/-- The `ARG` field of a command's header (`30_encoding.md` R44). -/
def Instr.arg : Instr → Byte
  | .fadd arg _ => arg
  | .fsub arg _ => arg
  | .fmul arg _ => arg
  | .fred arg _ => arg
  | .mds arg _ => arg
  | .ark1 arg _ => arg
  | .ark2 arg _ => arg
  | .sbox arg _ => arg
  | .isbox arg _ => arg
  | .round arg _ => arg
  | .perm arg _ => arg
  | .init arg _ => arg
  | .inject arg _ => arg
  | .flip arg _ => arg
  | .extract arg _ => arg

/-- The payload bytes of a command's record (`30_encoding.md` R45: none for EXTRACT). -/
def Instr.payload : Instr → List Byte
  | .fadd _ payload => payload
  | .fsub _ payload => payload
  | .fmul _ payload => payload
  | .fred _ payload => payload
  | .mds _ payload => payload
  | .ark1 _ payload => payload
  | .ark2 _ payload => payload
  | .sbox _ payload => payload
  | .isbox _ payload => payload
  | .round _ payload => payload
  | .perm _ payload => payload
  | .init _ payload => payload
  | .inject _ payload => payload
  | .flip _ payload => payload
  | .extract _ _ => []

/-- The `LEN` field of a command's header (`30_encoding.md` R44, R45): the payload length for every command but
EXTRACT, for which it is the number of output bytes wanted. -/
def Instr.len : Instr → Nat
  | .extract _ len => len.toNat
  | .fadd _ payload => payload.length
  | .fsub _ payload => payload.length
  | .fmul _ payload => payload.length
  | .fred _ payload => payload.length
  | .mds _ payload => payload.length
  | .ark1 _ payload => payload.length
  | .ark2 _ payload => payload.length
  | .sbox _ payload => payload.length
  | .isbox _ payload => payload.length
  | .round _ payload => payload.length
  | .perm _ payload => payload.length
  | .init _ payload => payload.length
  | .inject _ payload => payload.length
  | .flip _ payload => payload.length

end Sys2Proof
end

