-- ==== Sys2Proof/WellFormed.lean ====
section
/-! DEFINITION. Which commands are well-formed: those whose `ARG` and `LEN` the format allows
(`30_encoding.md` R47). Three checks, each with an ill-formed term that it refuses in Tests/Slice0.lean. -/

namespace Sys2Proof

/-- A record can carry the command: its payload fits the 16-bit `LEN` (`30_encoding.md` R44). -/
abbrev Instr.Encodable (i : Instr) : Prop := i.payload.length < 65536

/-- The values of `ARG` a format allows: a round index 0 .. 6 in `VR`, 0 in every other (`30_encoding.md` R47). -/
def Format.allowsArg (f : Format) (arg : Byte) : Bool :=
  match f with
  | .vectorRound => arg.toNat.ble 6
  | .noOperand | .scalars | .vector | .bytesIn | .bytesOut => arg == 0

/-- The values of `LEN` a format allows: 0 in `Z`, 16 in `S`, 96 in `V` and `VR`, any value in `I` and `X`
(`30_encoding.md` R47). -/
def Format.allowsLen (f : Format) (len : Nat) : Bool :=
  match f with
  | .noOperand => len == 0
  | .scalars => len == 16
  | .vector | .vectorRound => len == 96
  | .bytesIn | .bytesOut => true

/-- `ARG` is allowed by the command's format. -/
def Instr.argAllowed (i : Instr) : Bool := i.format.allowsArg i.arg

/-- `LEN` is allowed by the command's format. -/
def Instr.lenAllowed (i : Instr) : Bool := i.format.allowsLen i.len

/-- A well-formed command: encodable, with `ARG` and `LEN` allowed by its format. -/
abbrev Instr.WellFormed (i : Instr) : Prop :=
  i.Encodable ∧ i.argAllowed = true ∧ i.lenAllowed = true

end Sys2Proof
end

