-- ==== Sys2Proof/Decode.lean ====
section
/-! DEFINITION. From bytes to commands and back (`30_encoding.md`): little-endian numbers, the record header, the
framing, the decoder, and after it the encoder. The decoder is total on byte lists. -/

namespace Sys2Proof

/-- The number whose little-endian bytes are `b`: `b[0] + 2^8·b[1] + …` (`00_scope.md` section 5, `LE64`; `LE32` in
`30_encoding.md` R57). -/
def leNat : List Byte → Nat
  | [] => 0
  | b :: bs => b.toNat + 256 * leNat bs

/-- The first `n` little-endian bytes of a number (`LE64inv` for `n = 8`). -/
def leBytes : Nat → Nat → List Byte
  | 0, _ => []
  | n + 1, v => BitVec.ofNat 8 v :: leBytes n (v / 256)

/-- The three fields of a command header, and no others (`30_encoding.md` R44). -/
structure Header where
  opc : Byte
  arg : Byte
  len : BitVec 16
deriving DecidableEq, Repr

/-- The header in four stream bytes: `OPC`, `ARG`, `LEN[7:0]`, `LEN[15:8]` (`30_encoding.md` R43, R44). -/
def headerOf (b0 b1 b2 b3 : Byte) : Header :=
  { opc := b0, arg := b1, len := BitVec.ofNat 16 (leNat [b2, b3]) }

/-- `plen` (`30_encoding.md` R45): 0 for `OPC = 0x23`, `LEN` for every other opcode, assigned or not. -/
def payloadLen (h : Header) : Nat := if h.opc = 0x23 then 0 else h.len.toNat

/-- The command of a whole record, or none for the 241 unassigned opcodes (`30_encoding.md` R48, R51). All eight bits
of `OPC` are matched. -/
def commandOf (h : Header) (payload : List Byte) : Option Instr :=
  match h.opc with
  | 0x01#8 => some (.fadd h.arg payload)
  | 0x02#8 => some (.fsub h.arg payload)
  | 0x03#8 => some (.fmul h.arg payload)
  | 0x04#8 => some (.fred h.arg payload)
  | 0x10#8 => some (.mds h.arg payload)
  | 0x11#8 => some (.ark1 h.arg payload)
  | 0x12#8 => some (.ark2 h.arg payload)
  | 0x13#8 => some (.sbox h.arg payload)
  | 0x14#8 => some (.isbox h.arg payload)
  | 0x15#8 => some (.round h.arg payload)
  | 0x16#8 => some (.perm h.arg payload)
  | 0x20#8 => some (.init h.arg payload)
  | 0x21#8 => some (.inject h.arg payload)
  | 0x22#8 => some (.flip h.arg payload)
  | 0x23#8 => some (.extract h.arg h.len)
  | _ => none

/-- What the next bytes of `CMD` are (`30_encoding.md` R53). -/
inductive Decoded where
  /-- A whole record with an assigned opcode, and the bytes after it. -/
  | command (i : Instr) (rest : List Byte)
  /-- A whole record with an unassigned opcode (R51), and the bytes after it. -/
  | illegalOpcode (h : Header) (rest : List Byte)
  /-- The stream ends inside a record. -/
  | partialRecord
  /-- There is no byte left: no record has begun. -/
  | noRecord
deriving DecidableEq, Repr

/-- Take one record off the stream and classify it (`30_encoding.md` R53, R57): read 4 bytes, compute `plen`, read
`plen` more, look the opcode up. -/
def decode : List Byte → Decoded
  | [] => .noRecord
  | b0 :: b1 :: b2 :: b3 :: tail =>
    if tail.length < payloadLen (headerOf b0 b1 b2 b3) then .partialRecord
    else
      match commandOf (headerOf b0 b1 b2 b3) (tail.take (payloadLen (headerOf b0 b1 b2 b3))) with
      | some i => .command i (tail.drop (payloadLen (headerOf b0 b1 b2 b3)))
      | none => .illegalOpcode (headerOf b0 b1 b2 b3) (tail.drop (payloadLen (headerOf b0 b1 b2 b3)))
  | _ :: _ => .partialRecord

/-- One element of a decoded stream (`30_encoding.md` R53). -/
inductive Record where
  /-- A record with an assigned opcode. -/
  | command (i : Instr)
  /-- A record with an unassigned opcode, which will fault. -/
  | illegal (h : Header)
deriving DecidableEq, Repr

/-- Decode a stream of at most `fuel` records; none where it ends inside a record (`30_encoding.md` R53). -/
def decodeRecords : Nat → List Byte → Option (List Record)
  | 0, [] => some []
  | 0, _ :: _ => none
  | fuel + 1, bs =>
    match decode bs with
    | .noRecord => some []
    | .partialRecord => none
    | .command i rest => (decodeRecords fuel rest).map (Record.command i :: ·)
    | .illegalOpcode h rest => (decodeRecords fuel rest).map (Record.illegal h :: ·)

/-- A whole `CMD` stream as the list of its records, or none where it is not a run (`30_encoding.md` R53). A record
is at least four bytes long, so the stream's length is fuel enough. -/
def decodeStream (bs : List Byte) : Option (List Record) := decodeRecords bs.length bs

/-- The opcode of a command (`30_encoding.md` R48). -/
def opcodeOf : Instr → Byte
  | .fadd .. => 0x01
  | .fsub .. => 0x02
  | .fmul .. => 0x03
  | .fred .. => 0x04
  | .mds .. => 0x10
  | .ark1 .. => 0x11
  | .ark2 .. => 0x12
  | .sbox .. => 0x13
  | .isbox .. => 0x14
  | .round .. => 0x15
  | .perm .. => 0x16
  | .init .. => 0x20
  | .inject .. => 0x21
  | .flip .. => 0x22
  | .extract .. => 0x23

/-- The record of a command: header, least significant byte first, then the payload (`30_encoding.md` R43, R47). -/
def encode (i : Instr) : List Byte := opcodeOf i :: i.arg :: leBytes 2 i.len ++ i.payload

/-- The record whose bits are `w`, numbered as spec/opcode_table.json numbers them (bit 0 the least significant bit of
the first byte), with every bit above `nbits` zero: the header and as many payload bytes as it announces. -/
def tableRecord (nbits w : Nat) : List Byte :=
  leBytes (4 + payloadLen (headerOf (BitVec.ofNat 8 (w % 2 ^ nbits)) (BitVec.ofNat 8 (w % 2 ^ nbits / 2 ^ 8))
    (BitVec.ofNat 8 (w % 2 ^ nbits / 2 ^ 16)) (BitVec.ofNat 8 (w % 2 ^ nbits / 2 ^ 24)))) (w % 2 ^ nbits)

/-- The command the decoder reads from the record of a table word. -/
def decodeTableWord (nbits w : Nat) : Option Instr :=
  match decode (tableRecord nbits w) with
  | .command i _ => some i
  | .illegalOpcode _ _ => none
  | .partialRecord => none
  | .noRecord => none

end Sys2Proof
end

