-- ==== Sys2Proof/Config.lean ====
section
/-! DEFINITION. What the spec leaves open: the three constant tables (`00_scope.md` R6, `92_eei_decisions.md` D16)
and the values of `S` and `DPTR` after reset (`10_state.md` R25, `93_implementation_defined.md` U1). Each is a
constant with no body, so that nothing can be proved about its value beyond its type. -/

namespace Sys2Proof

/-- The constant tables (`00_scope.md` R6). The type of an entry holds the one constraint the spec states: a field
element in [0, p). -/
structure Tables where
  /-- `MDS[i][j]`: row `i`, column `j`. -/
  mds : Vector (Vector Felt 12) 12
  /-- `ARK1[r][i]`. -/
  ark1 : Vector (Vector Felt 12) 7
  /-- `ARK2[r][i]`. -/
  ark2 : Vector (Vector Felt 12) 7
deriving DecidableEq, Repr, Inhabited

/-- The tables of the block as built (`10_state.md` R22). DESIGN CHOICE, safe: log entry 5. -/
opaque Config.tables : Tables

/-- The words `S[0..11]` after reset: unspecified, "any twelve words" (`10_state.md` R25).
DESIGN CHOICE: log entry 1. -/
opaque Config.resetWords : Lanes

/-- The cursor after reset: unspecified, "any 7-bit value" (`10_state.md` R25). DESIGN CHOICE: log entry 1. -/
opaque Config.resetCursor : BitVec 7

end Sys2Proof
end

