-- ==== Sys2Proof/Machine/State.lean ====
section
/-! DEFINITION. The state of the block as plain data (`10_state.md` R13 to R27), the records of its response port
(`30_encoding.md` R46), the reasons a step can stop, and the state after reset (`10_state.md` R25). -/

namespace Sys2Proof.Machine

/-- Where the context is in its lifecycle (`10_state.md` R18). -/
inductive Phase where
  /-- `UNINIT`: no INIT since reset. -/
  | uninit
  /-- `ABSORBING`: more input may be injected. -/
  | absorbing
  /-- `SQUEEZING`: after FLIP. -/
  | squeezing
deriving DecidableEq, Repr

/-- The four architectural faults of the block (`60_exceptions.md` R101). They are reported in a response and the block
goes on; they are not outcomes that stop the model. -/
inductive FaultCode where
  | illegalOpcode
  | illegalOperand
  | badLength
  | illegalState
deriving DecidableEq, Repr

/-- The `STATUS` of a response (`60_exceptions.md` R101). -/
inductive Status where
  | ok
  | fault (c : FaultCode)
deriving DecidableEq, Repr

/-- One response record: its status and its data bytes (`30_encoding.md` R46). -/
structure Response where
  status : Status
  data : List Byte
deriving DecidableEq, Repr

/-- The sponge context, which is all the architectural state (`10_state.md` R27): the twelve state words, the cursor and
the phase. The byte buffer is the same storage as the words (`10_state.md` R16) and so is no field of its own. -/
structure Context where
  /-- `S[0..11]` (`10_state.md` R13). -/
  words : Lanes
  /-- `DPTR` (`10_state.md` R17). -/
  dptr : BitVec 7
  /-- `PHASE` (`10_state.md` R18). -/
  phase : Phase
deriving DecidableEq, Repr

/-- The machine: its architectural state, its two ports and the command index. -/
structure State where
  /-- The architectural state. -/
  ctx : Context
  /-- The bytes the host has sent on `CMD` and the block has not taken yet (`30_encoding.md` R42). -/
  cmd : List Byte
  /-- The records the block has emitted on `RSP` since reset, oldest first (`30_encoding.md` R42). -/
  rsp : List Response
  /-- The index of the next command of the run (`10_state.md` R21); no command reads it. -/
  index : Nat
deriving DecidableEq, Repr

/-- Why the machine stops. No instruction raises one in any state that a run can reach. -/
inductive Fault where
  /-- INJECT or EXTRACT would access a byte outside `BUF[0..95]`, an address the spec says does not exist
  (`20_memory.md` R28). Raised only where the cursor holds 97 to 127, values that never occur (`10_state.md` R17).
  Safe: the model stops where the spec says nothing. -/
  | cursorOutOfRange
deriving DecidableEq, Repr

/-- Why a step gives no meaning. -/
inductive Refusal where
  /-- An instruction that has no meaning yet, by its mnemonic. Raised by no arm: every instruction has one. Safe. -/
  | notModelled (mnemonic : String)
  /-- `CMD` is empty: there is no command to take, the run has ended (`70_reset_and_hazards.md` R126). Raised by the
  step, never by an instruction. Safe: the block is idle and nothing can be claimed of it. -/
  | noCommand
  /-- `CMD` ends inside a record: the block waits for the rest and a model refuses such an input
  (`30_encoding.md` R53, `93_implementation_defined.md` U4). Raised by the step, never by an instruction. Safe. -/
  | partialRecord
deriving DecidableEq, Repr

/-- What a step answers. -/
abbrev Result := Host.Outcome State Fault Refusal

/-- The machine right after reset (`10_state.md` R25, `70_reset_and_hazards.md` R115): `PHASE = UNINIT`, `S` and `DPTR`
unspecified, both ports empty, the command index 0 (`10_state.md` R21). DESIGN CHOICE: log entry 1. -/
def State.reset : State :=
  { ctx := { words := Config.resetWords, dptr := Config.resetCursor, phase := .uninit }
    cmd := []
    rsp := []
    index := 0 }

end Sys2Proof.Machine
end

