-- ==== Sys2Proof/Machine/Ops.lean ====
section
/-! DEFINITION. The named operations over the buffer, the ports and the context: words as bytes, `MemRead` and
`MemWrite` (`00_scope.md` section 5), the response record, ending a command normally, taking a fault, fetching a
record, and what the host can do. There is no return from a fault to model: a fault saves nothing and changes
nothing (`60_exceptions.md` R106). -/

namespace Sys2Proof.Machine

/-- `LE64(b)` of a sequence of 8 bytes (`00_scope.md` section 5). -/
def le64 (b : List Byte) : Word := BitVec.ofNat 64 (leNat b)

/-- `LE64inv(w)`: byte `k` is `w[8k+7:8k]` (`00_scope.md` section 5). -/
def le64inv (w : Word) : List Byte := leBytes 8 w.toNat

/-- The 96 bytes of a vector, word 0 first, each word little-endian: the buffer view of the state words
(`20_memory.md` R29) and the image of a vector in a record (`20_memory.md` R39). -/
def bufOf (x : Lanes) : List Byte := x.toList.flatMap le64inv

/-- Word `i` of a 96-byte image: `LE64(b[8i], .., b[8i+7])` (`20_memory.md` R29). -/
def wordAt (b : List Byte) (i : Nat) : Word := le64 ((b.drop (8 * i)).take 8)

/-- The vector whose image is `b` (`20_memory.md` R29, R39). -/
def lanesOf (b : List Byte) : Lanes := Vector.ofFn fun i : Fin 12 => wordAt b i.val

/-- `MemRead(addr, n)` (`00_scope.md` section 5): the bytes `BUF[addr] .. BUF[addr+n−1]`; none outside the buffer, where
no byte exists (`20_memory.md` R28). -/
def memRead (x : Lanes) (addr n : Nat) : Option (List Byte) :=
  if addr + n ≤ bufLen then some (((bufOf x).drop addr).take n) else none

/-- `MemWrite(addr, n, v)` (`00_scope.md` section 5): `BUF[addr+u] <- v[u]`, every other byte kept; none outside the
buffer. -/
def memWrite (x : Lanes) (addr : Nat) (v : List Byte) : Option Lanes :=
  if addr + v.length ≤ bufLen then
    some (lanesOf ((bufOf x).take addr ++ v ++ (bufOf x).drop (addr + v.length)))
  else none

/-- One byte of the buffer (`20_memory.md` R28); none for an address that does not exist. -/
def bufByte (x : Lanes) (addr : Nat) : Option Byte := (bufOf x)[addr]?

/-- The buffer as a list of cells: every address of the one address space, rising, with its byte
(`20_memory.md` R28, R30). -/
def memCells (x : Lanes) : List Host.Cell := (List.range bufLen).zip (bufOf x)

/-- The one canonical form of a list of cells: exactly the addresses 0 to 95, rising. No address of the space is
unlisted, so none has a value by default. -/
abbrev memWf (cells : List Host.Cell) : Prop := cells.map Prod.fst = List.range bufLen

/-- The `STATUS` code of a fault (`60_exceptions.md` R101). -/
def faultByte : FaultCode → Byte
  | .illegalOpcode => 1
  | .illegalOperand => 2
  | .badLength => 3
  | .illegalState => 4

/-- The `STATUS` byte (`60_exceptions.md` R101). -/
def statusByte : Status → Byte
  | .ok => 0
  | .fault c => faultByte c

/-- The bytes of a response record (`30_encoding.md` R46): `STATUS`, 0, `RLEN` little-endian, the data. -/
def responseBytes (r : Response) : List Byte :=
  statusByte r.status :: 0 :: leBytes 2 r.data.length ++ r.data

/-- The byte stream of the response port: the records one after another (`30_encoding.md` R42). -/
def rspStream (s : State) : List Byte := s.rsp.flatMap responseBytes

/-- Put one record on the response port. -/
def emit (r : Response) (s : State) : State := { s with rsp := s.rsp ++ [r] }

/-- Replace the sponge context. -/
def setCtx (c : Context) (s : State) : State := { s with ctx := c }

/-- `respond(data)`: the command ends normally (`00_scope.md` section 5). -/
def respond (data : List Byte) (s : State) : Result := .next (emit ⟨.ok, data⟩ s)

/-- `raise <Fault>`: taking a fault (`60_exceptions.md` R105). No architectural state changes, the response carries the
code and no data, and the block goes on to the next record. The record itself has been consumed by the fetch. -/
def raise (c : FaultCode) (s : State) : Result := .next (emit ⟨.fault c, []⟩ s)

/-- Fetch: what the next bytes on the command port are (`30_encoding.md` R53). -/
def fetch (s : State) : Decoded := decode s.cmd

/-- Take a whole record off the command port, leaving `rest`, and count it (`30_encoding.md` R45, `10_state.md` R21). -/
def advance (rest : List Byte) (s : State) : State := { s with cmd := rest, index := s.index + 1 }

/-- Put a record in front of everything that waits on the command port. -/
def placeRecord (record : List Byte) (s : State) : State := { s with cmd := record ++ s.cmd }

/-- The host sends bytes on the command port (`70_reset_and_hazards.md` R125). -/
def sendBytes (bs : List Byte) (s : State) : State := { s with cmd := s.cmd ++ bs }

/-- The host asserts reset (`70_reset_and_hazards.md` R115): an event between commands, whose result does not depend on
the state before it. Log entries 1 and 8. -/
def hostReset (_ : State) : State := State.reset

end Sys2Proof.Machine
end

