-- ==== Sys2Proof/Machine/Operands.lean ====
section
/-! DEFINITION. The operand forms: for each record format (`30_encoding.md` R47) the checks of `ARG` and `LEN` in their
fixed order (`60_exceptions.md` R104) and the operands its payload is cut into (`30_encoding.md` R50), and the
phase check of the sponge commands. Each form takes the rest of the command as its last argument. -/

namespace Sys2Proof.Machine

/-- `ARG` must be 0 (`30_encoding.md` R47, `60_exceptions.md` R102). -/
def withZeroArg (arg : Byte) (s : State) (k : Result) : Result :=
  if arg = 0 then k else raise .illegalOperand s

/-- The payload must be `n` bytes long (`60_exceptions.md` R102). -/
def withLength (n : Nat) (payload : List Byte) (s : State) (k : Result) : Result :=
  if payload.length = n then k else raise .badLength s

/-- Format `Z`: no operand. -/
def withNone (arg : Byte) (payload : List Byte) (s : State) (k : Result) : Result :=
  withZeroArg arg s (withLength 0 payload s k)

/-- Format `S`: the first and the second payload word (`30_encoding.md` R50). -/
def withScalars (arg : Byte) (payload : List Byte) (s : State) (k : Word → Word → Result) : Result :=
  withZeroArg arg s (withLength 16 payload s (k (wordAt payload 0) (wordAt payload 1)))

/-- Format `V`: payload word `i` is element `i` of the vector (`30_encoding.md` R50). -/
def withVector (arg : Byte) (payload : List Byte) (s : State) (k : Lanes → Result) : Result :=
  withZeroArg arg s (withLength 96 payload s (k (lanesOf payload)))

/-- Format `VR`: `ARG` is the round index, 0 .. 6 (`30_encoding.md` R47, R50). -/
def withVectorRound (arg : Byte) (payload : List Byte) (s : State) (k : Fin 7 → Lanes → Result) : Result :=
  if h : arg.toNat < 7 then withLength 96 payload s (k ⟨arg.toNat, h⟩ (lanesOf payload))
  else raise .illegalOperand s

/-- Format `I`: the payload is the data; every length is allowed (`30_encoding.md` R47). -/
def withBytesIn (arg : Byte) (payload : List Byte) (s : State) (k : List Byte → Result) : Result :=
  withZeroArg arg s (k payload)

/-- Format `X`: `LEN` is the number of bytes wanted; every length is allowed (`30_encoding.md` R47). -/
def withBytesOut (arg : Byte) (len : BitVec 16) (s : State) (k : Nat → Result) : Result :=
  withZeroArg arg s (k len.toNat)

/-- A sponge command in the wrong phase faults (`60_exceptions.md` R103). The check stands after those of the header
(`60_exceptions.md` R104). -/
def withPhase (need : Phase) (s : State) (k : Result) : Result :=
  if s.ctx.phase = need then k else raise .illegalState s

/-- The response of a command whose result is one word (`30_encoding.md` R56). -/
def respondWord (w : Word) (s : State) : Result := respond (le64inv w) s

/-- The response of a command whose result is a vector (`30_encoding.md` R56). -/
def respondLanes (y : Lanes) (s : State) : Result := respond (bufOf y) s

end Sys2Proof.Machine
end

