-- ==== Sys2Proof/Machine/Field.lean ====
section
/-! DEFINITION. The field arithmetic unit FA (`40_field.md`): the four field functions, defined as the exact residues
the spec defines them to be, the power function, and the meanings of FADD, FSUB, FMUL and FRED. -/

namespace Sys2Proof.Machine

/-- `F(w) = w mod p`: the field element a word stands for (`00_scope.md` section 5). -/
def residue (w : Word) : Word := BitVec.ofNat 64 (w.toNat % modulus)

/-- `fadd(a, b) = (a + b) mod p` (`40_field.md` R60). -/
def fadd (a b : Word) : Word := BitVec.ofNat 64 ((a.toNat + b.toNat) % modulus)

/-- `fsub(a, b) = (a − b) mod p`, the difference a mathematical integer (`40_field.md` R62). -/
def fsub (a b : Word) : Word := BitVec.ofNat 64 (((a.toNat : Int) - (b.toNat : Int)) % (modulus : Int)).toNat

/-- `fmul(a, b) = (a · b) mod p` (`40_field.md` R64). -/
def fmul (a b : Word) : Word := BitVec.ofNat 64 (a.toNat * b.toNat % modulus)

/-- `fred(lo, hi) = (hi · 2^64 + lo) mod p` (`40_field.md` R66). -/
def fred (lo hi : Word) : Word := BitVec.ofNat 64 ((hi.toNat * 2 ^ 64 + lo.toNat) % modulus)

/-- Square and multiply for exponents below `2^fuel`. -/
def fpowFuel : Nat → Word → Nat → Word
  | 0, _, _ => 1
  | fuel + 1, a, e =>
    if e % 2 = 1 then fmul a (fpowFuel fuel (fmul a a) (e / 2)) else fpowFuel fuel (fmul a a) (e / 2)

/-- `fpow(a, e) = (a^e) mod p`, under `fmul`; the grouping of the multiplications does not matter
(`40_field.md` R70). -/
def fpow (a : Word) (e : Nat) : Word := fpowFuel (e.log2 + 1) a e

/-- FADD (`40_field.md` R61). -/
def execFadd (arg : Byte) (payload : List Byte) (s : State) : Result :=
  withScalars arg payload s fun a b => respondWord (fadd a b) s

/-- FSUB (`40_field.md` R63). -/
def execFsub (arg : Byte) (payload : List Byte) (s : State) : Result :=
  withScalars arg payload s fun a b => respondWord (fsub a b) s

/-- FMUL (`40_field.md` R65). -/
def execFmul (arg : Byte) (payload : List Byte) (s : State) : Result :=
  withScalars arg payload s fun a b => respondWord (fmul a b) s

/-- FRED: the first payload word is `lo`, the second `hi` (`40_field.md` R67). -/
def execFred (arg : Byte) (payload : List Byte) (s : State) : Result :=
  withScalars arg payload s fun lo hi => respondWord (fred lo hi) s

end Sys2Proof.Machine
end

