-- ==== Sys2Proof/Machine/Permutation.lean ====
section
/-! DEFINITION. The permutation engine PE (`41_permutation.md`): the vector functions, each over the constant tables
given to it, and the meanings of the seven vector commands, which take the tables of the block as built. -/

namespace Sys2Proof.Machine

/-- The lane indices, in the order of accumulation the spec writes (`41_permutation.md` R72). -/
def laneIndices : List (Fin 12) := [0, 1, 2, 3, 4, 5, 6, 7, 8, 9, 10, 11]

/-- The rounds, round 0 first (`41_permutation.md` R84). -/
def roundIndices : List (Fin 7) := [0, 1, 2, 3, 4, 5, 6]

/-- One row of the matrix times a vector: `acc <- 0; for j: acc <- fadd(acc, fmul(MDS[i][j], x[j]))`
(`41_permutation.md` R72). -/
def dotRow (row : Vector Felt 12) (x : Lanes) : Word :=
  laneIndices.foldl (fun acc j => fadd acc (fmul (feltWord row[j]) x[j])) 0

/-- `Mds(x)`: the linear mix, every lane from the old vector (`41_permutation.md` R72). -/
def mds (t : Tables) (x : Lanes) : Lanes := Vector.ofFn fun i : Fin 12 => dotRow t.mds[i] x

/-- `Ark1(r, x)` (`41_permutation.md` R74). -/
def ark1 (t : Tables) (r : Fin 7) (x : Lanes) : Lanes :=
  Vector.ofFn fun i : Fin 12 => fadd x[i] (feltWord t.ark1[r][i])

/-- `Ark2(r, x)` (`41_permutation.md` R76). -/
def ark2 (t : Tables) (r : Fin 7) (x : Lanes) : Lanes :=
  Vector.ofFn fun i : Fin 12 => fadd x[i] (feltWord t.ark2[r][i])

/-- `Sbox(x)`: the seventh power of each lane (`41_permutation.md` R78). -/
def sbox (x : Lanes) : Lanes := Vector.ofFn fun i : Fin 12 => fpow x[i] alpha

/-- `Isbox(x)`: the `d`-th power of each lane (`41_permutation.md` R80). -/
def isbox (x : Lanes) : Lanes := Vector.ofFn fun i : Fin 12 => fpow x[i] invAlpha

/-- `Round(r, x)` (`41_permutation.md` R82). -/
def oneRound (t : Tables) (r : Fin 7) (x : Lanes) : Lanes :=
  isbox (ark2 t r (mds t (sbox (ark1 t r (mds t x)))))

/-- `Permute(x)`: rounds 0 to 6 (`41_permutation.md` R84). -/
def permute (t : Tables) (x : Lanes) : Lanes := roundIndices.foldl (fun y r => oneRound t r y) x

/-- `F` on each lane. -/
def residues (x : Lanes) : Lanes := Vector.ofFn fun i : Fin 12 => residue x[i]

/-- MDS (`41_permutation.md` R73). -/
def execMds (arg : Byte) (payload : List Byte) (s : State) : Result :=
  withVector arg payload s fun x => respondLanes (mds Config.tables x) s

/-- ARK1 (`41_permutation.md` R75). -/
def execArk1 (arg : Byte) (payload : List Byte) (s : State) : Result :=
  withVectorRound arg payload s fun r x => respondLanes (ark1 Config.tables r x) s

/-- ARK2 (`41_permutation.md` R77). -/
def execArk2 (arg : Byte) (payload : List Byte) (s : State) : Result :=
  withVectorRound arg payload s fun r x => respondLanes (ark2 Config.tables r x) s

/-- SBOX (`41_permutation.md` R79). -/
def execSbox (arg : Byte) (payload : List Byte) (s : State) : Result :=
  withVector arg payload s fun x => respondLanes (sbox x) s

/-- ISBOX (`41_permutation.md` R81). -/
def execIsbox (arg : Byte) (payload : List Byte) (s : State) : Result :=
  withVector arg payload s fun x => respondLanes (isbox x) s

/-- ROUND (`41_permutation.md` R83). -/
def execRound (arg : Byte) (payload : List Byte) (s : State) : Result :=
  withVectorRound arg payload s fun r x => respondLanes (oneRound Config.tables r x) s

/-- PERM (`41_permutation.md` R85). It does not touch the sponge context. -/
def execPerm (arg : Byte) (payload : List Byte) (s : State) : Result :=
  withVector arg payload s fun x => respondLanes (permute Config.tables x) s

end Sys2Proof.Machine
end

