-- ==== Sys2Proof/Machine/Sponge.lean ====
section
/-! DEFINITION. The sponge state machine SP (`42_sponge.md`): the two loops over the context, as the spec's pseudocode
writes them, and the meanings of INIT, INJECT, FLIP and EXTRACT. -/

namespace Sys2Proof.Machine

/-- The fresh, empty sponge (`42_sponge.md` R88, `10_state.md` R26). -/
def freshContext : Context := { words := Vector.replicate 12 0, dptr := 32, phase := .absorbing }

/-- `S <- Permute(S); DPTR <- 32` (`42_sponge.md` R89, R92). -/
def permuteCtx (t : Tables) (c : Context) : Context := { c with words := permute t c.words, dptr := 32 }

/-- `DPTR <- DPTR + n` (`20_memory.md` R32). -/
def moveCursor (n : Nat) (c : Context) : Context := { c with dptr := BitVec.ofNat 7 (c.dptr.toNat + n) }

/-- How many of `n` bytes fit before offset 96 (`42_sponge.md` R89, R92: `min(n − k, 96 − DPTR)`). -/
def chunk (n : Nat) (c : Context) : Nat := min n (rateEnd - c.dptr.toNat)

/-- The loop of INJECT (`42_sponge.md` R89): copy a chunk to the cursor, advance, and permute when the cursor reaches
96. It takes at most `data.length + 1` iterations; none where a write would fall outside the buffer. -/
def absorbLoop (t : Tables) : Nat → List Byte → Context → Option Context
  | _, [], c => some c
  | 0, _ :: _, _ => none
  | fuel + 1, b :: bs, c =>
    (memWrite c.words c.dptr.toNat ((b :: bs).take (chunk (bs.length + 1) c))).bind fun words =>
      absorbLoop t fuel ((b :: bs).drop (chunk (bs.length + 1) c))
        (if c.dptr.toNat + chunk (bs.length + 1) c = rateEnd then permuteCtx t { c with words := words }
         else moveCursor (chunk (bs.length + 1) c) { c with words := words })

/-- The context after absorbing the bytes `data`. -/
def absorb (t : Tables) (data : List Byte) (c : Context) : Option Context := absorbLoop t (data.length + 1) data c

/-- The permutation that EXTRACT runs before a chunk, if the cursor is at 96 (`42_sponge.md` R92). -/
def refill (t : Tables) (c : Context) : Context := if c.dptr.toNat = rateEnd then permuteCtx t c else c

/-- The loop of EXTRACT (`42_sponge.md` R92): permute if the cursor is at 96, copy a chunk out, advance. It takes at
most `n` iterations; none where a read would fall outside the buffer. -/
def squeezeLoop (t : Tables) : Nat → Nat → Context → Option (List Byte × Context)
  | _, 0, c => some ([], c)
  | 0, _ + 1, _ => none
  | fuel + 1, n + 1, c =>
    (memRead (refill t c).words (refill t c).dptr.toNat (chunk (n + 1) (refill t c))).bind fun bytes =>
      (squeezeLoop t fuel (n + 1 - chunk (n + 1) (refill t c))
        (moveCursor (chunk (n + 1) (refill t c)) (refill t c))).map fun r => (bytes ++ r.1, r.2)

/-- The bytes squeezed when `n` are wanted, and the context after it. -/
def squeeze (t : Tables) (n : Nat) (c : Context) : Option (List Byte × Context) := squeezeLoop t (n + 1) n c

/-- FLIP's change of the context: no byte of the buffer is written (`42_sponge.md` R91, R94). -/
def flipContext (c : Context) : Context := { c with dptr := 96, phase := .squeezing }

/-- End INJECT with the context its loop left. -/
def finishAbsorb (r : Option Context) (s : State) : Result :=
  match r with
  | some c => respond [] (setCtx c s)
  | none => .fault .cursorOutOfRange

/-- End EXTRACT with the bytes and the context its loop left. -/
def finishSqueeze (r : Option (List Byte × Context)) (s : State) : Result :=
  match r with
  | some (out, c) => respond out (setCtx c s)
  | none => .fault .cursorOutOfRange

/-- INIT (`42_sponge.md` R88): legal in every phase. -/
def execInit (arg : Byte) (payload : List Byte) (s : State) : Result :=
  withNone arg payload s (respond [] (setCtx freshContext s))

/-- INJECT (`42_sponge.md` R89). -/
def execInject (arg : Byte) (payload : List Byte) (s : State) : Result :=
  withBytesIn arg payload s fun data => withPhase .absorbing s (finishAbsorb (absorb Config.tables data s.ctx) s)

/-- FLIP (`42_sponge.md` R91). -/
def execFlip (arg : Byte) (payload : List Byte) (s : State) : Result :=
  withNone arg payload s (withPhase .absorbing s (respond [] (setCtx (flipContext s.ctx) s)))

/-- EXTRACT (`42_sponge.md` R92). -/
def execExtract (arg : Byte) (len : BitVec 16) (s : State) : Result :=
  withBytesOut arg len s fun n => withPhase .squeezing s (finishSqueeze (squeeze Config.tables n s.ctx) s)

end Sys2Proof.Machine
end

