-- ==== Sys2Proof/Machine/Dispatch.lean ====
section
/-! DEFINITION. The one dispatch from commands to their meanings. -/

namespace Sys2Proof.Machine

def exec (i : Instr) (s : State) : Host.Outcome State Fault Refusal :=
  match i with
  | .fadd arg payload => Sys2Proof.Machine.execFadd arg payload s
  | .fsub arg payload => Sys2Proof.Machine.execFsub arg payload s
  | .fmul arg payload => Sys2Proof.Machine.execFmul arg payload s
  | .fred arg payload => Sys2Proof.Machine.execFred arg payload s
  | .mds arg payload => Sys2Proof.Machine.execMds arg payload s
  | .ark1 arg payload => Sys2Proof.Machine.execArk1 arg payload s
  | .ark2 arg payload => Sys2Proof.Machine.execArk2 arg payload s
  | .sbox arg payload => Sys2Proof.Machine.execSbox arg payload s
  | .isbox arg payload => Sys2Proof.Machine.execIsbox arg payload s
  | .round arg payload => Sys2Proof.Machine.execRound arg payload s
  | .perm arg payload => Sys2Proof.Machine.execPerm arg payload s
  | .init arg payload => Sys2Proof.Machine.execInit arg payload s
  | .inject arg payload => Sys2Proof.Machine.execInject arg payload s
  | .flip arg payload => Sys2Proof.Machine.execFlip arg payload s
  | .extract arg len => Sys2Proof.Machine.execExtract arg len s

end Sys2Proof.Machine
end

