-- ==== Sys2Proof/Machine/Step.lean ====
section
/-! DEFINITION. One step of the block: take one command record off the command port and run it to completion
(`30_encoding.md` R42, R57). -/

namespace Sys2Proof.Machine

/-- One step. A record with an unassigned opcode faults before any command's rule (`30_encoding.md` R51). -/
def step (s : State) : Host.Outcome State Fault Refusal :=
  match fetch s with
  | .command i rest => exec i (advance rest s)
  | .illegalOpcode _ rest => raise .illegalOpcode (advance rest s)
  | .partialRecord => .refused .partialRecord
  | .noRecord => .refused .noCommand

/-- The state with the record of a table word placed first on the command port: the header and the payload of zeros it
announces. Nothing else changes. -/
def State.withFetchWord (s : State) (nbits w : Nat) : State := placeRecord (tableRecord nbits w) s

end Sys2Proof.Machine
end

