-- ==== Sys2Proof/Machine/Assembly.lean ====
section
/-! DEFINITION. The assembler of the spec (`30_encoding.md` R54, R55): its lines with typed operands, the record each
stands for, the four pseudo-instructions, and a reader of its text. It has no semantic content beyond the records
(`30_encoding.md` section 6), and the machine uses none of it. -/

namespace Sys2Proof.Machine

/-- One line of assembly with its operands read (`30_encoding.md` R54); the last four are the pseudo-instructions
(R55). -/
inductive Asm where
  | fadd (a b : Word)
  | fsub (a b : Word)
  | fmul (a b : Word)
  | fred (lo hi : Word)
  | mds (x : Lanes)
  | ark1 (r : Fin 7) (x : Lanes)
  | ark2 (r : Fin 7) (x : Lanes)
  | sbox (x : Lanes)
  | isbox (x : Lanes)
  | round (r : Fin 7) (x : Lanes)
  | perm (x : Lanes)
  | init
  | inject (data : List Byte)
  | flip
  | extract (n : BitVec 16)
  | fneg (a : Word)
  | fsqr (a : Word)
  | fcanon (a : Word)
  | injectWords (ws : List Word)
deriving DecidableEq, Repr

/-- The payload of two scalars (`30_encoding.md` R47). -/
def scalarPayload (a b : Word) : List Byte := le64inv a ++ le64inv b

/-- A round index as the header's `ARG`. -/
def roundArg (r : Fin 7) : Byte := BitVec.ofNat 8 r.val

/-- The command a line stands for (`30_encoding.md` R54; pseudo-instructions expanded as in R55). -/
def assemble : Asm → Instr
  | .fadd a b => .fadd 0 (scalarPayload a b)
  | .fsub a b => .fsub 0 (scalarPayload a b)
  | .fmul a b => .fmul 0 (scalarPayload a b)
  | .fred lo hi => .fred 0 (scalarPayload lo hi)
  | .mds x => .mds 0 (bufOf x)
  | .ark1 r x => .ark1 (roundArg r) (bufOf x)
  | .ark2 r x => .ark2 (roundArg r) (bufOf x)
  | .sbox x => .sbox 0 (bufOf x)
  | .isbox x => .isbox 0 (bufOf x)
  | .round r x => .round (roundArg r) (bufOf x)
  | .perm x => .perm 0 (bufOf x)
  | .init => .init 0 []
  | .inject data => .inject 0 data
  | .flip => .flip 0 []
  | .extract n => .extract 0 n
  | .fneg a => .fsub 0 (scalarPayload 0 a)
  | .fsqr a => .fmul 0 (scalarPayload a a)
  | .fcanon a => .fred 0 (scalarPayload a 0)
  | .injectWords ws => .inject 0 (ws.flatMap le64inv)

/-- A space or tab. -/
def isBlank (c : Char) : Bool := c == ' ' || c == '\t'

/-- Drop the blanks at both ends. -/
def trimBlanks (cs : List Char) : List Char :=
  ((cs.dropWhile isBlank).reverse.dropWhile isBlank).reverse

/-- Cut at every `sep`. -/
def cutAt (sep : Char) : List Char → List (List Char)
  | [] => [[]]
  | c :: cs =>
    if c = sep then [] :: cutAt sep cs
    else
      match cutAt sep cs with
      | [] => [[c]]
      | w :: ws => (c :: w) :: ws

/-- The value of a digit, if it is one in the base. -/
def digitValue (base : Nat) (c : Char) : Option Nat :=
  let v :=
    if '0' ≤ c ∧ c ≤ '9' then c.toNat - '0'.toNat
    else if 'a' ≤ c ∧ c ≤ 'f' then c.toNat - 'a'.toNat + 10
    else if 'A' ≤ c ∧ c ≤ 'F' then c.toNat - 'A'.toNat + 10
    else base
  if v < base then some v else none

/-- Digits after the value `acc`. -/
def readDigits (base : Nat) : Nat → List Char → Option Nat
  | acc, [] => some acc
  | acc, c :: cs =>
    match digitValue base c with
    | some v => readDigits base (acc * base + v) cs
    | none => none

/-- An unsigned integer, decimal (`30_encoding.md` R54). -/
def readDecimal : List Char → Option Nat
  | [] => none
  | c :: cs => readDigits 10 0 (c :: cs)

/-- An unsigned integer, decimal or `0x` hexadecimal (`30_encoding.md` R54). -/
def readNumber : List Char → Option Nat
  | '0' :: 'x' :: c :: cs => readDigits 16 0 (c :: cs)
  | cs => readDecimal cs

/-- A scalar operand, 0 .. 2^64−1 (`30_encoding.md` R54). -/
def readWord (cs : List Char) : Option Word :=
  (readNumber (trimBlanks cs)).bind fun v => if v < 2 ^ 64 then some (BitVec.ofNat 64 v) else none

/-- A byte count, decimal, 0 .. 65535 (`30_encoding.md` R54). -/
def readCount (cs : List Char) : Option (BitVec 16) :=
  (readDecimal (trimBlanks cs)).bind fun v => if v < 65536 then some (BitVec.ofNat 16 v) else none

/-- A round index, decimal, 0 .. 6 (`30_encoding.md` R54). -/
def readRound (cs : List Char) : Option (Fin 7) :=
  (readDecimal (trimBlanks cs)).bind fun v => if h : v < 7 then some ⟨v, h⟩ else none

/-- All of a list of readings, or none. -/
def readAll {α : Type} : List (Option α) → Option (List α)
  | [] => some []
  | some a :: rest => (readAll rest).map (a :: ·)
  | none :: _ => none

/-- Twelve words. -/
def readLanes (ops : List (List Char)) : Option Lanes :=
  (readAll (ops.map readWord)).bind fun ws =>
    if h : ws.length = 12 then some (Vector.ofFn fun i : Fin 12 => ws[i.val]'(by omega)) else none

/-- Two hexadecimal digits for each byte, first byte first, up to the closing quote, which ends the operand. -/
def readHexBytes : List Char → Option (List Byte)
  | ['"'] => some []
  | h :: l :: rest =>
    match digitValue 16 h, digitValue 16 l, readHexBytes rest with
    | some a, some b, some bs => some (BitVec.ofNat 8 (16 * a + b) :: bs)
    | _, _, _ => none
  | _ => none

/-- `n` bytes of 0, from the count and the closing parenthesis of `zeros(n)` (`30_encoding.md` R54). -/
def readZeros (cs : List Char) : Option (List Byte) :=
  match cs.reverse with
  | ')' :: n => (readCount n.reverse).map fun k : BitVec 16 => List.replicate k.toNat 0
  | _ => none

/-- The operand of `inject`: `hex"…"` or `zeros(n)` (`30_encoding.md` R54). -/
def readByteString (cs : List Char) : Option (List Byte) :=
  match cs with
  | 'h' :: 'e' :: 'x' :: '"' :: rest => readHexBytes rest
  | 'z' :: 'e' :: 'r' :: 'o' :: 's' :: '(' :: rest => readZeros rest
  | _ => none

/-- The operand of `inject`, at most 65535 bytes, which is what one record carries (`30_encoding.md` R44). -/
def readBytes (cs : List Char) : Option (List Byte) :=
  (readByteString (trimBlanks cs)).bind fun bs => if bs.length < 65536 then some bs else none

/-- Two scalar operands. -/
def readPair (f : Word → Word → Asm) : List (List Char) → Option Asm
  | [a, b] => (readWord a).bind fun x => (readWord b).map (f x)
  | _ => none

/-- One scalar operand. -/
def readOne (f : Word → Asm) : List (List Char) → Option Asm
  | [a] => (readWord a).map f
  | _ => none

/-- A round index and twelve words. -/
def readRoundLanes (f : Fin 7 → Lanes → Asm) : List (List Char) → Option Asm
  | r :: ops => (readRound r).bind fun i => (readLanes ops).map (f i)
  | [] => none

/-- The mnemonic and operands of a line, looked up (`30_encoding.md` R54, R55). -/
def readCommand (mnemonic : List Char) (ops : List (List Char)) : Option Asm :=
  if mnemonic = "fadd".toList then readPair .fadd ops
  else if mnemonic = "fsub".toList then readPair .fsub ops
  else if mnemonic = "fmul".toList then readPair .fmul ops
  else if mnemonic = "fred".toList then readPair .fred ops
  else if mnemonic = "mds".toList then (readLanes ops).map .mds
  else if mnemonic = "ark1".toList then readRoundLanes .ark1 ops
  else if mnemonic = "ark2".toList then readRoundLanes .ark2 ops
  else if mnemonic = "sbox".toList then (readLanes ops).map .sbox
  else if mnemonic = "isbox".toList then (readLanes ops).map .isbox
  else if mnemonic = "round".toList then readRoundLanes .round ops
  else if mnemonic = "perm".toList then (readLanes ops).map .perm
  else if mnemonic = "init".toList then (if ops = [] then some .init else none)
  else if mnemonic = "inject".toList then (match ops with | [d] => (readBytes d).map .inject | _ => none)
  else if mnemonic = "flip".toList then (if ops = [] then some .flip else none)
  else if mnemonic = "extract".toList then (match ops with | [n] => (readCount n).map .extract | _ => none)
  else if mnemonic = "fneg".toList then readOne .fneg ops
  else if mnemonic = "fsqr".toList then readOne .fsqr ops
  else if mnemonic = "fcanon".toList then readOne .fcanon ops
  else if mnemonic = "inject.w".toList then
    (readAll (ops.map readWord)).bind fun ws => if 8 * ws.length < 65536 ∧ ws ≠ [] then some (.injectWords ws) else none
  else none

/-- One line: `;` starts a comment, the mnemonic ends at the first blank, operands are cut at commas
(`30_encoding.md` R54). An empty line is no command. None where the line is not of the syntax. -/
def readLine (cs : List Char) : Option (Option Asm) :=
  let line := trimBlanks (cs.takeWhile (· ≠ ';'))
  if line = [] then some none
  else
    let mnemonic := line.takeWhile (fun c => !isBlank c)
    let rest := trimBlanks (line.dropWhile (fun c => !isBlank c))
    (readCommand mnemonic (if rest = [] then [] else cutAt ',' rest)).map some

/-- A program text, one command a line, as the commands it stands for (`30_encoding.md` R54). -/
def readProgram (text : String) : Option (List Instr) :=
  (readAll ((cutAt '\n' text.toList).map readLine)).map fun lines =>
    (lines.filterMap id).map assemble

/-- The `CMD` bytes of a program text. -/
def programBytes (text : String) : Option (List Byte) := (readProgram text).map fun is => is.flatMap encode

end Sys2Proof.Machine
end

