-- ==== Sys2Proof/Machine/Flags.lean ====
section
/-! DEFINITION. The block has no flags: none is state and no command writes one (`10_state.md` R20). What the spec has
are the carries and borrows inside one field operation (`40_field.md` R60, R62, R68, R69), which end with the
operation. They are computed here, for the datapaths of Machine/Datapath.lean. -/

namespace Sys2Proof.Machine

/-- The carry out of a 64-bit addition (`40_field.md` R60: `(a + b) ≥ 2^64`). -/
def carryOut (a b : Word) : Bool := decide (2 ^ 64 ≤ a.toNat + b.toNat)

/-- The borrow of a 64-bit subtraction (`40_field.md` R62: `a < b`). -/
def borrowOut (a b : Word) : Bool := decide (a.toNat < b.toNat)

end Sys2Proof.Machine
end

