-- ==== Sys2Proof/Machine/Datapath.lean ====
section
/-! DEFINITION. The carry-level algorithms the spec writes out beside the definitions of Machine/Field.lean and
Machine/Permutation.lean (`40_field.md` R60, R62, R68, R69; `41_permutation.md` R78, R80). They define no new
function and no meaning calls them: the statements say that they equal the definitions where the spec says so. -/

namespace Sys2Proof.Machine

/-- `p` as a word. -/
def modulusWord : Word := BitVec.ofNat 64 modulus

/-- `EPS` as a word (`00_scope.md` R3). -/
def epsWord : Word := BitVec.ofNat 64 eps

/-- One conditional subtraction of `p`: the modulus check (`40_field.md` R60, R69). -/
def subtractOnce (w : Word) : Word := if modulusWord.toNat ≤ w.toNat then w - modulusWord else w

/-- The addition algorithm for canonical operands (`40_field.md` R60). -/
def addCanonical (a b : Word) : Word :=
  subtractOnce (if carryOut a b then a + b + epsWord else a + b)

/-- The subtraction algorithm for canonical operands (`40_field.md` R62). -/
def subCanonical (a b : Word) : Word := if borrowOut a b then a - b + modulusWord else a - b

/-- `w[31:0]` as a word. -/
def lowHalf (w : Word) : Word := (w.extractLsb' 0 32).setWidth 64

/-- `w[63:32]` as a word. -/
def highHalf (w : Word) : Word := (w.extractLsb' 32 32).setWidth 64

/-- `mid` of the product by halves (`40_field.md` R68). -/
def mulMid (a b : Word) : Word :=
  highHalf (lowHalf a * lowHalf b) + lowHalf (lowHalf a * highHalf b) + lowHalf (highHalf a * lowHalf b)

/-- `lo` of the product by halves (`40_field.md` R68). -/
def mulLo (a b : Word) : Word := lowHalf (lowHalf a * lowHalf b) + (lowHalf (mulMid a b) <<< 32)

/-- `hi` of the product by halves (`40_field.md` R68). -/
def mulHi (a b : Word) : Word :=
  highHalf a * highHalf b + highHalf (lowHalf a * highHalf b) + highHalf (highHalf a * lowHalf b)
    + highHalf (mulMid a b)

/-- `t0` of the reduction: the first subtraction, with `EPS` taken off on a borrow (`40_field.md` R69). -/
def reduceT0 (lo hi : Word) : Word :=
  if borrowOut lo (highHalf hi) then lo - highHalf hi - epsWord else lo - highHalf hi

/-- `t1` of the reduction: the second subtraction, `2^32·hl − hl` (`40_field.md` R69). -/
def reduceT1 (hi : Word) : Word := (lowHalf hi <<< 32) - lowHalf hi

/-- The reduction by the shape of `p` (`40_field.md` R69): the scaled addition, `EPS` added on a carry, and the modulus
check. -/
def reduceWide (lo hi : Word) : Word :=
  subtractOnce
    (if carryOut (reduceT0 lo hi) (reduceT1 hi) then reduceT0 lo hi + reduceT1 hi + epsWord
     else reduceT0 lo hi + reduceT1 hi)

/-- `x^4` by two squarings: `x4` of the seventh power and `t2` of the chain (`41_permutation.md` R78, R80). -/
def pow4 (x : Word) : Word := fmul (fmul x x) (fmul x x)

/-- Four multiplications for `x^7`: `x2`, `x4`, `x6 = x4·x2`, `x7 = x6·x` (`41_permutation.md` R78). -/
def pow7Chain (x : Word) : Word := fmul (fmul (pow4 x) (fmul x x)) x

/-- Square `b` `m` times, then multiply by `tail`: `sqmul(b, m, t)` (`41_permutation.md` R80). -/
def sqmul : Word → Nat → Word → Word
  | b, 0, tail => fmul b tail
  | b, m + 1, tail => sqmul (fmul b b) m tail

/-- `t3` of the chain. -/
def chainT3 (x : Word) : Word := sqmul (pow4 x) 3 (pow4 x)

/-- `t4` of the chain. -/
def chainT4 (x : Word) : Word := sqmul (chainT3 x) 6 (chainT3 x)

/-- `t5` of the chain. -/
def chainT5 (x : Word) : Word := sqmul (chainT4 x) 12 (chainT4 x)

/-- `t6` of the chain. -/
def chainT6 (x : Word) : Word := sqmul (chainT5 x) 6 (chainT3 x)

/-- `t7` of the chain. -/
def chainT7 (x : Word) : Word := sqmul (chainT6 x) 31 (chainT6 x)

/-- `a` of the chain before its two last squarings. -/
def chainA (x : Word) : Word := fmul (fmul (chainT7 x) (chainT7 x)) (chainT6 x)

/-- The 72-multiplication chain for `x^d` (`41_permutation.md` R80). -/
def powInvChain (x : Word) : Word :=
  fmul (fmul (fmul (chainA x) (chainA x)) (fmul (chainA x) (chainA x))) (fmul (fmul (fmul x x) (pow4 x)) x)

end Sys2Proof.Machine
end

