-- ==== Sys2Proof/Safety.lean ====
section
/-! DEFINITION. What a claim about the block is stated in: the invariants of the context (`10_state.md` R15, R19), the
fault each command must report (`60_exceptions.md` R101 to R104), a clean run (`70_reset_and_hazards.md` R126), and
the function of a whole session (`42_sponge.md` R93, R96). Nothing here is used by the machine. -/

namespace Sys2Proof.Safety

open Sys2Proof.Machine

/-- Every lane of a vector is canonical. -/
abbrev AllCanonical (x : Lanes) : Prop := ∀ i : Fin 12, Canonical x[i]

/-- The cursor's bounds between commands (`10_state.md` R19); nothing is said in `UNINIT`. -/
def CursorOk (c : Context) : Prop :=
  (c.phase = .absorbing → 32 ≤ c.dptr.toNat ∧ c.dptr.toNat ≤ 95) ∧
  (c.phase = .squeezing → 32 ≤ c.dptr.toNat ∧ c.dptr.toNat ≤ 96)

/-- The capacity words are canonical at all times after INIT (`10_state.md` R15). -/
def CapacityCanonical (c : Context) : Prop := c.phase ≠ .uninit → ∀ i : Fin 12, i.val < 4 → Canonical c.words[i]

/-- In `SQUEEZING`, once the first byte has been squeezed, every word is canonical (`42_sponge.md` R92: "every output
byte is a byte of a canonical word"). -/
def SqueezedCanonical (c : Context) : Prop :=
  c.phase = .squeezing → c.dptr.toNat < 96 → AllCanonical c.words

/-- A response record as `30_encoding.md` R46 has it: `RLEN` fits 16 bits, and a fault carries no data. -/
def ResponseOk (r : Response) : Prop := r.data.length < 65536 ∧ (r.status ≠ .ok → r.data = [])

/-- Every response emitted so far is of that form. -/
def ResponsesOk (s : State) : Prop := ∀ r ∈ s.rsp, ResponseOk r

/-- A run has gone wrong if any response has `STATUS ≠ 0` (`70_reset_and_hazards.md` R126); a clean run has not. -/
def CleanRun (s : State) : Prop := ∀ r ∈ s.rsp, r.status = .ok

/-- The phase a command needs, if it needs one (`60_exceptions.md` R102, the last column). -/
def phaseNeeded : Instr → Option Phase
  | .inject .. => some .absorbing
  | .flip .. => some .absorbing
  | .extract .. => some .squeezing
  | .fadd .. | .fsub .. | .fmul .. | .fred .. => none
  | .mds .. | .ark1 .. | .ark2 .. | .sbox .. | .isbox .. | .round .. | .perm .. => none
  | .init .. => none

/-- The first fault that applies to a command in a phase (`60_exceptions.md` R102, R104); none where it executes. -/
def faultOf (i : Instr) (ph : Phase) : Option FaultCode :=
  match i.argAllowed, i.lenAllowed, phaseNeeded i with
  | false, _, _ => some .illegalOperand
  | true, false, _ => some .badLength
  | true, true, some need => if ph = need then none else some .illegalState
  | true, true, none => none

/-- The eleven stateless commands (`30_encoding.md` R49). -/
def Stateless : Instr → Prop
  | .fadd .. | .fsub .. | .fmul .. | .fred .. => True
  | .mds .. | .ark1 .. | .ark2 .. | .sbox .. | .isbox .. | .round .. | .perm .. => True
  | .init .. | .inject .. | .flip .. | .extract .. => False

/-- The sixteen-bit `RLEN` a command's normal response carries (`30_encoding.md` R56). -/
def responseLength : Instr → Nat
  | .fadd .. | .fsub .. | .fmul .. | .fred .. => 8
  | .mds .. | .ark1 .. | .ark2 .. | .sbox .. | .isbox .. | .round .. | .perm .. => 96
  | .init .. | .inject .. | .flip .. => 0
  | .extract _ len => len.toNat

/-- A state with its rate bytes from offset 32 on replaced by `m` (`42_sponge.md` R96). -/
def overlay (x : Lanes) (m : List Byte) : Lanes :=
  lanesOf ((bufOf x).take 32 ++ m ++ (bufOf x).drop (32 + m.length))

/-- `S_f` of a message with `q` full blocks left (`42_sponge.md` R96): each block of 64 bytes replaces the rate bytes
and is permuted in, the tail replaces the first rate bytes. -/
def messageState (t : Tables) : Nat → Lanes → List Byte → Lanes
  | 0, z, m => overlay z m
  | q + 1, z, m => messageState t q (permute t (overlay z (m.take 64))) (m.drop 64)

/-- Byte `k` of the output stream from `S_f`: `BUF[32 + (k mod 64)]` of `Permute^(⌊k/64⌋ + 1)(S_f)`
(`42_sponge.md` R93). -/
def streamByte (t : Tables) (sf : Lanes) (k : Nat) : Byte :=
  (bufOf ((permute t)^[k / 64 + 1] sf)).getD (32 + k % 64) 0

/-- The first `n` bytes of the output stream from `S_f` (`42_sponge.md` R93). -/
def stream (t : Tables) (sf : Lanes) (n : Nat) : List Byte := (List.range n).map (streamByte t sf)

/-- Run the commands one after another, each to completion before the next begins (`10_state.md` R21). -/
def execAll : List Instr → State → Result
  | [], s => .next s
  | i :: is, s =>
    match exec i s with
    | .next s' => execAll is s'
    | .fault r => .fault r
    | .refused r => .refused r

end Sys2Proof.Safety
end

