-- ==== Sys2Proof/Certificates/Slice0/Obligations.lean ====
section
/-! DEFINITION. The statements for the provers, in the order of the spec: encoding, faults, field arithmetic,
permutation, sponge, whole machine. Each docstring names the rule it formalises. -/

open Sys2Proof Sys2Proof.Machine Sys2Proof.Safety

/-! ### Encoding and the step -/

/-- Decoding an encoded command gives it back, with every operand at every value the record can carry, and leaves the
bytes after it (`30_encoding.md` R43, R45, R48, R53). No form is shut out: `ARG` and `LEN` need not be legal. -/
def Obligations.DecodeOfEncode : Prop :=
  ∀ (i : Instr) (rest : List Byte), i.Encodable → decode (encode i ++ rest) = .command i rest

/-- The other direction: what decodes to a command is the encoding of that command, followed by the rest
(`30_encoding.md` R43, R45, R48). -/
def Obligations.EncodeOfDecode : Prop :=
  ∀ (bs rest : List Byte) (i : Instr), decode bs = .command i rest → i.Encodable ∧ bs = encode i ++ rest

/-- A stream that is a concatenation of records decodes to the list of its commands (`30_encoding.md` R53). -/
def Obligations.StreamDecodesRecordByRecord : Prop :=
  ∀ is : List Instr, (∀ i ∈ is, i.Encodable) →
    decodeStream (is.flatMap encode) = some (is.map Record.command)

/-- Records written out from the spec's encodings decode to the commands they stand for (`30_encoding.md` section 8;
`95_test_vectors.md` section 6). -/
def Obligations.SampleRecordsDecode : Prop :=
  decode [0x01, 0x00, 0x10, 0x00, 1, 0, 0, 0, 0, 0, 0, 0, 2, 0, 0, 0, 0, 0, 0, 0] =
      .command (assemble (.fadd 1 2)) [] ∧
  decode [0x04, 0x00, 0x10, 0x00, 5, 0, 0, 0, 0, 0, 0, 0, 1, 0, 0, 0, 0, 0, 0, 0] =
      .command (assemble (.fred 5 1)) [] ∧
  decode ([0x11, 0x03, 0x60, 0x00] ++ List.replicate 96 0) =
      .command (assemble (.ark1 3 (Vector.replicate 12 0))) [] ∧
  decode ([0x16, 0x00, 0x60, 0x00, 1, 0, 0, 0, 0, 0, 0, 0] ++ List.replicate 88 0) =
      .command (assemble (.perm #v[1, 0, 0, 0, 0, 0, 0, 0, 0, 0, 0, 0])) [] ∧
  decode [0x20, 0x00, 0x00, 0x00] = .command (.init 0 []) [] ∧
  decode [0x21, 0x00, 0x02, 0x00, 0xAA, 0xBB] = .command (.inject 0 [0xAA, 0xBB]) [] ∧
  decode [0x22, 0x00, 0x00, 0x00] = .command (.flip 0 []) [] ∧
  decode [0x23, 0x00, 0x2C, 0x01] = .command (.extract 0 300) []

/-- A step runs the decoded command: the record is off the port, the command counted, and the rest is `exec`
(`30_encoding.md` R42, R57; `10_state.md` R21). -/
def Obligations.StepRunsDecodedCommand : Prop :=
  ∀ (s : State) (i : Instr) (rest : List Byte), decode s.cmd = .command i rest →
    step s = exec i { s with cmd := rest, index := s.index + 1 }

/-- A step takes exactly `4 + plen` bytes off the port, whether the command executes or faults, with `plen = 0` for
`OPC = 0x23` and `LEN` for every other opcode (`30_encoding.md` R45). -/
def Obligations.StepConsumesOneRecord : Prop :=
  ∀ s t : State, step s = .next t →
    ∃ (opc arg lo hi : Byte) (payload : List Byte),
      s.cmd = opc :: arg :: lo :: hi :: payload ++ t.cmd ∧
      payload.length = if opc = 0x23 then 0 else lo.toNat + 256 * hi.toNat

/-- Each of the 241 unassigned opcodes: the record is consumed whole and faults with `ILLEGAL_OPCODE`, and nothing else
happens but that the command is counted (`30_encoding.md` R51, R45; `60_exceptions.md` R105). The command index is the
model's choice (log entry 4), which `10_state.md` R21 allows: a faulting command advances it too. -/
def Obligations.UnassignedOpcodeFaults : Prop :=
  ∀ (s : State) (opc arg lo hi : Byte) (payload rest : List Byte),
    opc ∉ ([0x01, 0x02, 0x03, 0x04, 0x10, 0x11, 0x12, 0x13, 0x14, 0x15, 0x16, 0x20, 0x21, 0x22, 0x23] : List Byte) →
    payload.length = lo.toNat + 256 * hi.toNat →
    s.cmd = opc :: arg :: lo :: hi :: payload ++ rest →
    step s = .next { s with
      cmd := rest, index := s.index + 1, rsp := s.rsp ++ [⟨.fault .illegalOpcode, []⟩] }

/-- A stream that ends inside a record is refused by name, and so is an empty one; nothing is emitted
(`30_encoding.md` R53; `93_implementation_defined.md` U4). -/
def Obligations.PartialRecordIsRefused : Prop :=
  ∀ s : State,
    (s.cmd = [] → step s = .refused .noCommand) ∧
    (0 < s.cmd.length → s.cmd.length < 4 → step s = .refused .partialRecord) ∧
    (∀ (opc arg lo hi : Byte) (tail : List Byte), s.cmd = opc :: arg :: lo :: hi :: tail → opc ≠ 0x23 →
      tail.length < lo.toNat + 256 * hi.toNat → step s = .refused .partialRecord)

/-! ### Faults and responses -/

/-- Which fault each command reports, by its `ARG`, its `LEN` and the phase, with the priority of R104, for every form
of every command; on the fault nothing changes but the response (`60_exceptions.md` R102, R104, R105). -/
def Obligations.FaultsByCommand : Prop :=
  ∀ (i : Instr) (s : State) (c : FaultCode), faultOf i s.ctx.phase = some c →
    exec i s = .next { s with rsp := s.rsp ++ [⟨.fault c, []⟩] }

/-- Where no fault applies the command completes normally: one `OK` response with the number of data bytes R56 gives,
and the ports and the index otherwise as they were. The cursor premise is implied by the invariant of
`10_state.md` R19 (`60_exceptions.md` R100, R102; `30_encoding.md` R56). -/
def Obligations.EveryLegalCommandCompletes : Prop :=
  ∀ (i : Instr) (s : State), faultOf i s.ctx.phase = none → s.ctx.dptr.toNat ≤ 96 →
    ∃ t data, exec i s = .next t ∧ t.rsp = s.rsp ++ [⟨.ok, data⟩] ∧ data.length = responseLength i ∧
      t.cmd = s.cmd ∧ t.index = s.index

/-- A step that faults leaves the architectural state as it was and emits the four bytes `code 00 00 00`
(`60_exceptions.md` R105, R101). -/
def Obligations.FaultChangesNoState : Prop :=
  ∀ (s t : State) (r : Response), step s = .next t → t.rsp = s.rsp ++ [r] → r.status ≠ .ok →
    t.ctx = s.ctx ∧
    ((r.status = .fault .illegalOpcode ∧ responseBytes r = [1, 0, 0, 0]) ∨
     (r.status = .fault .illegalOperand ∧ responseBytes r = [2, 0, 0, 0]) ∨
     (r.status = .fault .badLength ∧ responseBytes r = [3, 0, 0, 0]) ∨
     (r.status = .fault .illegalState ∧ responseBytes r = [4, 0, 0, 0]))

/-- Exactly one response record for each command record, in order, and the command index advances by 1
(`30_encoding.md` R42; `10_state.md` R21). -/
def Obligations.OneResponsePerCommand : Prop :=
  ∀ s t : State, step s = .next t → (∃ r, t.rsp = s.rsp ++ [r]) ∧ t.index = s.index + 1

/-- Every step keeps the form of the responses: `RLEN` fits its 16 bits and a fault carries no data
(`30_encoding.md` R46). -/
def Obligations.StepKeepsResponsesOk : Prop :=
  ∀ s t : State, ResponsesOk s → step s = .next t → ResponsesOk t

/-- The bytes of a response record (`30_encoding.md` R46): `STATUS`, a zero byte, `RLEN` little-endian, the data. -/
def Obligations.ResponseHeaderLayout : Prop :=
  ∀ r : Response, ResponseOk r →
    ∃ lo hi : Byte, responseBytes r = statusByte r.status :: 0 :: lo :: hi :: r.data ∧
      lo.toNat + 256 * hi.toNat = r.data.length

/-! ### Memory -/

/-- Byte `8i + k` of the buffer is bits `8k+7 .. 8k` of word `i` (`20_memory.md` R29, R16). -/
def Obligations.BufferByteIsWordSlice : Prop :=
  ∀ (x : Lanes) (i : Fin 12) (k : Fin 8),
    bufByte x (8 * i.val + k.val) = some (x[i].extractLsb' (8 * k.val) 8)

/-- A write of part of the buffer changes exactly the bytes written; outside 0 .. 95 there is nothing to write
(`20_memory.md` R28, R33). -/
def Obligations.WriteChangesExactlyItsBytes : Prop :=
  ∀ (x : Lanes) (addr : Nat) (v : List Byte),
    (addr + v.length ≤ 96 → ∃ y, memWrite x addr v = some y ∧
      ∀ a, bufByte y a = if addr ≤ a ∧ a < addr + v.length then v[a - addr]? else bufByte x a) ∧
    (96 < addr + v.length → memWrite x addr v = none)

/-! ### Field arithmetic -/

/-- FADD answers `(a + b) mod p` of its two payload words, in every phase and for every pair of words, and changes
nothing else (`40_field.md` R60, R61). -/
def Obligations.FaddResult : Prop :=
  ∀ (s : State) (payload : List Byte), payload.length = 16 →
    exec (.fadd 0 payload) s = .next { s with rsp := s.rsp ++
      [⟨.ok, leBytes 8 ((leNat (payload.take 8) + leNat (payload.drop 8)) % modulus)⟩] }

/-- FSUB answers `(a − b) mod p` (`40_field.md` R62, R63). -/
def Obligations.FsubResult : Prop :=
  ∀ (s : State) (payload : List Byte), payload.length = 16 →
    exec (.fsub 0 payload) s = .next { s with rsp := s.rsp ++
      [⟨.ok, leBytes 8 (((leNat (payload.take 8) : Int) - (leNat (payload.drop 8) : Int)) % (modulus : Int)).toNat⟩] }

/-- FMUL answers `(a · b) mod p` (`40_field.md` R64, R65). -/
def Obligations.FmulResult : Prop :=
  ∀ (s : State) (payload : List Byte), payload.length = 16 →
    exec (.fmul 0 payload) s = .next { s with rsp := s.rsp ++
      [⟨.ok, leBytes 8 (leNat (payload.take 8) * leNat (payload.drop 8) % modulus)⟩] }

/-- FRED answers the residue of the 128-bit value whose little-endian bytes are the payload: `lo` first, then `hi`
(`40_field.md` R66, R67). -/
def Obligations.FredResult : Prop :=
  ∀ (s : State) (payload : List Byte), payload.length = 16 →
    exec (.fred 0 payload) s = .next { s with rsp := s.rsp ++ [⟨.ok, leBytes 8 (leNat payload % modulus)⟩] }

/-- The laws of the field that R70 lists, for all words, canonical or not; the last group says that every function
depends on each operand only through its residue (`40_field.md` R70). -/
def Obligations.FieldLaws : Prop :=
  ∀ a b c : Word,
    (Canonical (fadd a b) ∧ Canonical (fsub a b) ∧ Canonical (fmul a b) ∧ Canonical (fred a b)) ∧
    (fadd a 0 = residue a ∧ fmul a 1 = residue a ∧ fadd a (fsub 0 a) = 0) ∧
    (fadd a b = fadd b a ∧ fmul a b = fmul b a) ∧
    (fadd (fadd a b) c = fadd a (fadd b c) ∧ fmul (fmul a b) c = fmul a (fmul b c)) ∧
    fmul a (fadd b c) = fadd (fmul a b) (fmul a c) ∧
    fsub a b = fadd a (fsub 0 b) ∧
    (fadd (residue a) (residue b) = fadd a b ∧ fsub (residue a) (residue b) = fsub a b ∧
      fmul (residue a) (residue b) = fmul a b ∧ fred (residue a) (residue b) = fred a b)

/-- The addition and the subtraction algorithm equal the definitions on canonical operands (`40_field.md` R60, R62). -/
def Obligations.CanonicalAlgorithms : Prop :=
  ∀ a b : Word, Canonical a → Canonical b → addCanonical a b = fadd a b ∧ subCanonical a b = fsub a b

/-- The product by 32-bit halves is exact (R68, a claim the spec derives; its `mid` is the spec's own arrangement), and
its reduction is the product in the field (R64) (`40_field.md` R68, R64, R66; log entry 10). -/
def Obligations.ProductByHalvesIsExact : Prop :=
  ∀ a b : Word, (mulHi a b).toNat * 2 ^ 64 + (mulLo a b).toNat = a.toNat * b.toNat ∧
    fred (mulLo a b) (mulHi a b) = fmul a b

/-- The reduction algorithm, whose steps are the spec's own reconstruction, returns `fred(lo, hi)` for all words, a claim
the spec derives (`40_field.md` R69, R66; log entry 10). -/
def Obligations.ReductionAlgorithmIsFred : Prop :=
  ∀ lo hi : Word, reduceWide lo hi = fred lo hi

/-- Four multiplications compute `x^7` and the 72-multiplication chain computes `x^d` (`41_permutation.md` R78, R80). -/
def Obligations.PowerChains : Prop :=
  ∀ x : Word, pow7Chain x = fpow x alpha ∧ powInvChain x = fpow x invAlpha

/-! ### Permutation engine -/

/-- MDS answers the matrix-vector product, each lane the residue of the exact sum, every lane from the old vector
(`41_permutation.md` R72, R73). -/
def Obligations.MdsResult : Prop :=
  ∀ (s : State) (payload : List Byte), payload.length = 96 →
    exec (.mds 0 payload) s = .next { s with rsp := s.rsp ++
      [⟨.ok, bufOf (Vector.ofFn fun i : Fin 12 => BitVec.ofNat 64
        ((∑ j : Fin 12, (Config.tables.mds[i][j]).val * ((lanesOf payload)[j]).toNat) % modulus))⟩] }

/-- ARK1 adds row `r` of `ARK1` lane by lane, for each round index (`41_permutation.md` R74, R75). -/
def Obligations.Ark1Result : Prop :=
  ∀ (s : State) (r : Fin 7) (payload : List Byte), payload.length = 96 →
    exec (.ark1 (BitVec.ofNat 8 r.val) payload) s = .next { s with rsp := s.rsp ++
      [⟨.ok, bufOf (Vector.ofFn fun i : Fin 12 => BitVec.ofNat 64
        ((((lanesOf payload)[i]).toNat + (Config.tables.ark1[r][i]).val) % modulus))⟩] }

/-- ARK2 adds row `r` of `ARK2` lane by lane, for each round index (`41_permutation.md` R76, R77). -/
def Obligations.Ark2Result : Prop :=
  ∀ (s : State) (r : Fin 7) (payload : List Byte), payload.length = 96 →
    exec (.ark2 (BitVec.ofNat 8 r.val) payload) s = .next { s with rsp := s.rsp ++
      [⟨.ok, bufOf (Vector.ofFn fun i : Fin 12 => BitVec.ofNat 64
        ((((lanesOf payload)[i]).toNat + (Config.tables.ark2[r][i]).val) % modulus))⟩] }

/-- SBOX answers `x^7 mod p` in each lane (`41_permutation.md` R78, R79). -/
def Obligations.SboxResult : Prop :=
  ∀ (s : State) (payload : List Byte), payload.length = 96 →
    exec (.sbox 0 payload) s = .next { s with rsp := s.rsp ++
      [⟨.ok, bufOf (Vector.ofFn fun i : Fin 12 => BitVec.ofNat 64 (((lanesOf payload)[i]).toNat ^ alpha % modulus))⟩] }

/-- ISBOX answers, in each lane, a canonical word whose seventh power is the lane modulo `p`
(`41_permutation.md` R80, R81; `40_field.md` R70). -/
def Obligations.IsboxResult : Prop :=
  ∀ (s : State) (payload : List Byte), payload.length = 96 →
    ∃ y : Lanes, exec (.isbox 0 payload) s = .next { s with rsp := s.rsp ++ [⟨.ok, bufOf y⟩] } ∧
      ∀ i : Fin 12, Canonical y[i] ∧ y[i] = fpow ((lanesOf payload)[i]) invAlpha ∧
        y[i].toNat ^ alpha % modulus = ((lanesOf payload)[i]).toNat % modulus

/-- ROUND is the six steps in the source's order, with the constants of round `r` (`41_permutation.md` R82, R83). -/
def Obligations.RoundResult : Prop :=
  ∀ (s : State) (r : Fin 7) (payload : List Byte), payload.length = 96 →
    exec (.round (BitVec.ofNat 8 r.val) payload) s = .next { s with rsp := s.rsp ++
      [⟨.ok, bufOf (isbox (ark2 Config.tables r (mds Config.tables (sbox
        (ark1 Config.tables r (mds Config.tables (lanesOf payload)))))))⟩] }

/-- PERM is rounds 0 to 6, and leaves the sponge context alone (`41_permutation.md` R84, R85). -/
def Obligations.PermResult : Prop :=
  ∀ (s : State) (payload : List Byte), payload.length = 96 →
    exec (.perm 0 payload) s = .next { s with rsp := s.rsp ++
      [⟨.ok, bufOf (oneRound Config.tables 6 (oneRound Config.tables 5 (oneRound Config.tables 4
        (oneRound Config.tables 3 (oneRound Config.tables 2 (oneRound Config.tables 1
          (oneRound Config.tables 0 (lanesOf payload))))))))⟩] }

/-- The two S-boxes undo each other on every vector, up to residues (`40_field.md` R70; `41_permutation.md` R81). -/
def Obligations.SboxesAreInverse : Prop :=
  ∀ x : Lanes, isbox (sbox x) = residues x ∧ sbox (isbox x) = residues x

/-- Every lane of every vector function is canonical, for any tables (`41_permutation.md` R86, R71). -/
def Obligations.VectorResultsCanonical : Prop :=
  ∀ (t : Tables) (r : Fin 7) (x : Lanes),
    AllCanonical (mds t x) ∧ AllCanonical (ark1 t r x) ∧ AllCanonical (ark2 t r x) ∧ AllCanonical (sbox x) ∧
    AllCanonical (isbox x) ∧ AllCanonical (oneRound t r x) ∧ AllCanonical (permute t x)

/-- Every vector function depends on its vector only through the residues, for any tables (`41_permutation.md` R86). -/
def Obligations.VectorResiduesOnly : Prop :=
  ∀ (t : Tables) (r : Fin 7) (x : Lanes),
    mds t (residues x) = mds t x ∧ ark1 t r (residues x) = ark1 t r x ∧ ark2 t r (residues x) = ark2 t r x ∧
    sbox (residues x) = sbox x ∧ isbox (residues x) = isbox x ∧ oneRound t r (residues x) = oneRound t r x ∧
    permute t (residues x) = permute t x

/-- If the matrix has a left inverse modulo `p`, the permutation is injective on canonical vectors, so a bijection of
that finite set (`41_permutation.md` R86; the hypothesis on the table is the rule's own). -/
def Obligations.PermuteInjectiveIfMdsInvertible : Prop :=
  ∀ (t : Tables) (n : Vector (Vector Felt 12) 12),
    (∀ i j : Fin 12, (∑ k : Fin 12, (n[i][k]).val * (t.mds[k][j]).val) % modulus = if i = j then 1 else 0) →
    ∀ x y : Lanes, AllCanonical x → AllCanonical y → permute t x = permute t y → x = y

/-- The eleven stateless commands: each reads only its own record and writes only its own response. One response record
serves for every state, so none reads or writes `S`, `DPTR` or `PHASE`, and each is legal in every phase. This holds
for malformed records too (`30_encoding.md` R49). -/
def Obligations.StatelessCommands : Prop :=
  ∀ i : Instr, Stateless i → ∃ r : Response, ∀ s : State, exec i s = .next { s with rsp := s.rsp ++ [r] }

/-! ### Sponge -/

/-- INIT, in every phase and from every context, makes the fresh, empty sponge; a malformed INIT faults
(`42_sponge.md` R88; `10_state.md` R26). -/
def Obligations.InitResult : Prop :=
  ∀ (s : State) (arg : Byte) (payload : List Byte),
    (arg = 0 → payload = [] → exec (.init arg payload) s = .next { s with
      ctx := { words := Vector.replicate 12 0, dptr := 32, phase := .absorbing }
      rsp := s.rsp ++ [⟨.ok, []⟩] }) ∧
    (arg ≠ 0 → exec (.init arg payload) s = .next { s with rsp := s.rsp ++ [⟨.fault .illegalOperand, []⟩] }) ∧
    (arg = 0 → payload ≠ [] → exec (.init arg payload) s = .next { s with
      rsp := s.rsp ++ [⟨.fault .badLength, []⟩] })

/-- FLIP in `ABSORBING` sets the cursor to 96 and the phase to `SQUEEZING`, writes no byte of the buffer and runs no
permutation; malformed or in another phase it faults (`42_sponge.md` R91, R94). -/
def Obligations.FlipResult : Prop :=
  ∀ (s : State) (arg : Byte) (payload : List Byte),
    (arg = 0 → payload = [] → s.ctx.phase = .absorbing → exec (.flip arg payload) s = .next { s with
      ctx := { words := s.ctx.words, dptr := 96, phase := .squeezing }
      rsp := s.rsp ++ [⟨.ok, []⟩] }) ∧
    (arg ≠ 0 → exec (.flip arg payload) s = .next { s with rsp := s.rsp ++ [⟨.fault .illegalOperand, []⟩] }) ∧
    (arg = 0 → payload ≠ [] → exec (.flip arg payload) s = .next { s with
      rsp := s.rsp ++ [⟨.fault .badLength, []⟩] }) ∧
    (arg = 0 → payload = [] → s.ctx.phase ≠ .absorbing → exec (.flip arg payload) s = .next { s with
      rsp := s.rsp ++ [⟨.fault .illegalState, []⟩] })

/-- INJECT of bytes that leave room in the window: they replace the bytes at the cursor, every other byte of the buffer
reads as before, the cursor moves past them, no permutation runs (`42_sponge.md` R89, R95; `20_memory.md` R31, R33).
With no bytes it changes nothing (`30_encoding.md` R52). -/
def Obligations.InjectWithinWindow : Prop :=
  ∀ (s : State) (data : List Byte), s.ctx.phase = .absorbing → s.ctx.dptr.toNat + data.length < 96 →
    ∃ words : Lanes, exec (.inject 0 data) s = .next { s with
        ctx := { words := words, dptr := BitVec.ofNat 7 (s.ctx.dptr.toNat + data.length), phase := .absorbing }
        rsp := s.rsp ++ [⟨.ok, []⟩] } ∧
      ∀ a, bufByte words a =
        if s.ctx.dptr.toNat ≤ a ∧ a < s.ctx.dptr.toNat + data.length then data[a - s.ctx.dptr.toNat]?
        else bufByte s.ctx.words a

/-- INJECT of bytes that fill the window exactly: the permutation runs once, in the same command, on the overwritten
buffer, and the cursor goes back to 32 (`42_sponge.md` R89). -/
def Obligations.InjectFillsWindow : Prop :=
  ∀ (s : State) (data : List Byte), s.ctx.phase = .absorbing → data ≠ [] → s.ctx.dptr.toNat + data.length = 96 →
    exec (.inject 0 data) s = .next { s with
      ctx := { words := permute Config.tables (lanesOf ((bufOf s.ctx.words).take s.ctx.dptr.toNat ++ data))
               dptr := 32, phase := .absorbing }
      rsp := s.rsp ++ [⟨.ok, []⟩] }

/-- Where INJECT leaves the cursor, for any number of bytes (`42_sponge.md` R90). -/
def Obligations.InjectCursor : Prop :=
  ∀ (s : State) (data : List Byte), s.ctx.phase = .absorbing → 32 ≤ s.ctx.dptr.toNat → s.ctx.dptr.toNat ≤ 95 →
    ∃ words : Lanes, exec (.inject 0 data) s = .next { s with
      ctx := { words := words, phase := .absorbing
               dptr := BitVec.ofNat 7 (32 + (s.ctx.dptr.toNat - 32 + data.length) % 64) }
      rsp := s.rsp ++ [⟨.ok, []⟩] }

/-- Composability: INJECT of `A` and then of `B` leaves the whole context that one INJECT of `A` followed by `B` leaves
(`42_sponge.md` R90). By the model's choice it also covers a joined length that no `LEN` holds (log entry 11) and a
cursor outside the bounds of `10_state.md` R19, up to 96 (log entry 6). -/
def Obligations.InjectComposes : Prop :=
  ∀ (s : State) (a b : List Byte), s.ctx.phase = .absorbing → s.ctx.dptr.toNat ≤ 96 →
    ∃ t u v, exec (.inject 0 a) s = .next t ∧ exec (.inject 0 b) t = .next u ∧
      exec (.inject 0 (a ++ b)) s = .next v ∧ v.ctx = u.ctx

/-- EXTRACT of bytes still in the window: they are the bytes at the cursor, no word changes, the cursor moves past them
(`42_sponge.md` R92). With no bytes wanted it changes nothing and does not permute, even when the cursor is at 96
(`30_encoding.md` R52). -/
def Obligations.ExtractWithinWindow : Prop :=
  ∀ (s : State) (n : BitVec 16), s.ctx.phase = .squeezing → s.ctx.dptr.toNat + n.toNat ≤ 96 →
    exec (.extract 0 n) s = .next { s with
      ctx := { words := s.ctx.words, dptr := BitVec.ofNat 7 (s.ctx.dptr.toNat + n.toNat), phase := .squeezing }
      rsp := s.rsp ++ [⟨.ok, ((bufOf s.ctx.words).drop s.ctx.dptr.toNat).take n.toNat⟩] }

/-- EXTRACT of 1 to 64 bytes with the cursor at 96, so also the first one after FLIP: one permutation runs before any
byte is copied, and the bytes are the first of the new rate region (`42_sponge.md` R92, R91). -/
def Obligations.ExtractPermutesFirst : Prop :=
  ∀ (s : State) (n : BitVec 16), s.ctx.phase = .squeezing → s.ctx.dptr = 96 → 0 < n.toNat → n.toNat ≤ 64 →
    exec (.extract 0 n) s = .next { s with
      ctx := { words := permute Config.tables s.ctx.words, dptr := BitVec.ofNat 7 (32 + n.toNat)
               phase := .squeezing }
      rsp := s.rsp ++ [⟨.ok, ((bufOf (permute Config.tables s.ctx.words)).drop 32).take n.toNat⟩] }

/-- Streaming: the data of `extract N` followed by the data of `extract M` are the data of `extract N+M`, and the final
contexts are equal (`42_sponge.md` R93). -/
def Obligations.ExtractStreams : Prop :=
  ∀ (s : State) (n m k : BitVec 16), s.ctx.phase = .squeezing → s.ctx.dptr.toNat ≤ 96 →
    k.toNat = n.toNat + m.toNat →
    ∃ t u v d e, exec (.extract 0 n) s = .next t ∧ t.rsp = s.rsp ++ [⟨.ok, d⟩] ∧
      exec (.extract 0 m) t = .next u ∧ u.rsp = t.rsp ++ [⟨.ok, e⟩] ∧
      exec (.extract 0 k) s = .next v ∧ v.rsp = s.rsp ++ [⟨.ok, d ++ e⟩] ∧ v.ctx = u.ctx

/-- Where EXTRACT leaves the cursor: at 96, not 32, when the last byte wanted is the last of a window
(`42_sponge.md` R93). -/
def Obligations.ExtractCursor : Prop :=
  ∀ (s : State) (n : BitVec 16), s.ctx.phase = .squeezing → 32 ≤ s.ctx.dptr.toNat → s.ctx.dptr.toNat ≤ 96 →
    0 < n.toNat →
    ∃ t, exec (.extract 0 n) s = .next t ∧ t.ctx.phase = .squeezing ∧
      t.ctx.dptr.toNat = 33 + (s.ctx.dptr.toNat + n.toNat - 33) % 64

/-- The output after FLIP, for any number of bytes: byte `k` is `BUF[32 + (k mod 64)]` of
`Permute^(⌊k/64⌋ + 1)(S_f)` (`42_sponge.md` R93). -/
def Obligations.ExtractIsTheStream : Prop :=
  ∀ (s : State) (n : BitVec 16), s.ctx.phase = .squeezing → s.ctx.dptr = 96 →
    ∃ t, exec (.extract 0 n) s = .next t ∧
      t.rsp = s.rsp ++ [⟨.ok, stream Config.tables s.ctx.words n.toNat⟩]

/-- The function of a whole legal session, from any state: INIT, then INJECTs whose payloads joined are `m`, then FLIP,
then EXTRACTs. Every response is `OK`; the EXTRACT responses hold as many bytes as were wanted, and joined they are the
first bytes of the stream from `S_f`, with `S_f` the state R96 defines from `m` (`42_sponge.md` R96, which the spec
derives from R88, R89, R91, R92). An INJECT longer than `LEN` holds is covered too (log entry 11). -/
def Obligations.SessionFunction : Prop :=
  ∀ (s : State) (ms : List (List Byte)) (ns : List (BitVec 16)),
    ∃ (t : State) (outs : List (List Byte)),
      execAll (.init 0 [] :: ms.map (.inject 0) ++ .flip 0 [] :: ns.map (.extract 0)) s = .next t ∧
      t.rsp = s.rsp ++ List.replicate (ms.length + 2) ⟨.ok, []⟩ ++ outs.map (fun out => ⟨.ok, out⟩) ∧
      outs.map List.length = ns.map BitVec.toNat ∧
      outs.flatten = stream Config.tables
        (messageState Config.tables (ms.flatten.length / 64) (Vector.replicate 12 0) ms.flatten)
        (ns.map BitVec.toNat).sum

/-- No padding: the empty message and the messages of 1 to 63 zero bytes give the same responses and leave the same
context, for every choice of tables (`70_reset_and_hazards.md` R118; `42_sponge.md` R94). -/
def Obligations.ShortZeroMessagesCollide : Prop :=
  ∀ (s : State) (k : Nat) (n : BitVec 16), k ≤ 63 →
    ∃ t u, execAll [.init 0 [], .inject 0 [], .flip 0 [], .extract 0 n] s = .next t ∧
      execAll [.init 0 [], .inject 0 (List.replicate k 0), .flip 0 [], .extract 0 n] s = .next u ∧
      u.rsp = t.rsp ∧ u.ctx = t.ctx

/-- Non-canonical input words: two messages that differ only in an aligned 8-byte group replaced by its residue give
the same responses (`70_reset_and_hazards.md` R120; `41_permutation.md` R86). -/
def Obligations.ResidueWordsCollide : Prop :=
  ∀ (s : State) (a b : List Byte) (w : Word) (n : BitVec 16), a.length % 8 = 0 →
    ∃ t u, execAll [.init 0 [], .inject 0 (a ++ le64inv w ++ b), .flip 0 [], .extract 0 n] s = .next t ∧
      execAll [.init 0 [], .inject 0 (a ++ le64inv (residue w) ++ b), .flip 0 [], .extract 0 n] s = .next u ∧
      u.rsp = t.rsp

/-! ### Whole machine -/

/-- Reset, whatever went before, leaves `PHASE = UNINIT`, both ports empty and the index 0; nothing is said of `S` and
`DPTR`, which are unspecified. In `UNINIT`, INJECT, FLIP and EXTRACT of every well-formed form fault with
`ILLEGAL_STATE` (`10_state.md` R25, R21; `70_reset_and_hazards.md` R115, R116). -/
def Obligations.ResetState : Prop :=
  (State.reset.ctx.phase = .uninit ∧ State.reset.cmd = [] ∧ State.reset.rsp = [] ∧ State.reset.index = 0) ∧
  (∀ s : State, (hostReset s).ctx.phase = .uninit ∧ (hostReset s).cmd = [] ∧ (hostReset s).rsp = [] ∧
    (hostReset s).index = 0) ∧
  ∀ s : State, s.ctx.phase = .uninit → ∀ (data : List Byte) (n : BitVec 16),
    exec (.inject 0 data) s = .next { s with rsp := s.rsp ++ [⟨.fault .illegalState, []⟩] } ∧
    exec (.flip 0 []) s = .next { s with rsp := s.rsp ++ [⟨.fault .illegalState, []⟩] } ∧
    exec (.extract 0 n) s = .next { s with rsp := s.rsp ++ [⟨.fault .illegalState, []⟩] }

/-- The invariants hold at reset (`10_state.md` R15, R19). In `UNINIT` they say nothing of `S` and `DPTR`, whose values
are then the model's free constants. -/
def Obligations.ResetMeetsInvariants : Prop :=
  CursorOk State.reset.ctx ∧ CapacityCanonical State.reset.ctx ∧ SqueezedCanonical State.reset.ctx ∧
  ResponsesOk State.reset

/-- Every step keeps the cursor within the bounds of its phase, so never inside the capacity region
(`10_state.md` R19). -/
def Obligations.StepKeepsCursor : Prop :=
  ∀ s t : State, CursorOk s.ctx → step s = .next t → CursorOk t.ctx

/-- Every step keeps the capacity words canonical, and every word canonical once squeezing has begun
(`10_state.md` R15; `42_sponge.md` R92). -/
def Obligations.StepKeepsCanonicalWords : Prop :=
  ∀ s t : State, CursorOk s.ctx → CapacityCanonical s.ctx → SqueezedCanonical s.ctx → step s = .next t →
    CapacityCanonical t.ctx ∧ SqueezedCanonical t.ctx

/-- With the cursor within its bounds no step stops the machine: it goes on, or there is no whole record to take
(`60_exceptions.md` R100, R105; `70_reset_and_hazards.md` R124). -/
def Obligations.NoStepFaultsTheMachine : Prop :=
  ∀ s : State, CursorOk s.ctx →
    (∃ t, step s = .next t) ∨ step s = .refused .noCommand ∨ step s = .refused .partialRecord

/-- Nothing else changes the context: the words change only by INIT, INJECT and EXTRACT, the cursor only by these and
FLIP, and the phase only as the transition table says (`42_sponge.md` R97; `10_state.md` R14, R18). -/
def Obligations.OnlySpongeCommandsChangeContext : Prop :=
  ∀ (i : Instr) (s t : State), exec i s = .next t →
    (t.ctx.words ≠ s.ctx.words → opcodeOf i = 0x20 ∨ opcodeOf i = 0x21 ∨ opcodeOf i = 0x23) ∧
    (t.ctx.dptr ≠ s.ctx.dptr → opcodeOf i = 0x20 ∨ opcodeOf i = 0x21 ∨ opcodeOf i = 0x22 ∨ opcodeOf i = 0x23) ∧
    (t.ctx.phase = s.ctx.phase ∨ (opcodeOf i = 0x20 ∧ t.ctx.phase = .absorbing) ∨
      (opcodeOf i = 0x22 ∧ s.ctx.phase = .absorbing ∧ t.ctx.phase = .squeezing))

/-! ### Assembler -/

/-- Every line of assembly whose data fit a record stands for a well-formed command, and every well-formed command is
what some line stands for (`30_encoding.md` R54, R47). -/
def Obligations.AssemblerCoversWellFormed : Prop :=
  (∀ a : Asm, (assemble a).Encodable → (assemble a).WellFormed) ∧
  (∀ i : Instr, i.WellFormed → ∃ a : Asm, assemble a = i)

/-- What the pseudo-instructions answer (`30_encoding.md` R55): `(−a) mod p`, `a^2 mod p`, `a mod p`; `inject.w` absorbs
the little-endian bytes of its words. -/
def Obligations.PseudoInstructionResults : Prop :=
  ∀ (s : State) (a : Word) (ws : List Word),
    exec (assemble (.fneg a)) s = .next { s with rsp := s.rsp ++
      [⟨.ok, le64inv (BitVec.ofNat 64 ((modulus - a.toNat % modulus) % modulus))⟩] } ∧
    exec (assemble (.fsqr a)) s = .next { s with rsp := s.rsp ++
      [⟨.ok, le64inv (BitVec.ofNat 64 (a.toNat ^ 2 % modulus))⟩] } ∧
    exec (assemble (.fcanon a)) s = .next { s with rsp := s.rsp ++
      [⟨.ok, le64inv (BitVec.ofNat 64 (a.toNat % modulus))⟩] } ∧
    exec (assemble (.injectWords ws)) s = exec (.inject 0 (ws.flatMap le64inv)) s
end

