-- ==== Sys2Proof/Laws/Bytes.lean ====
section
/-! SUPPORT. Little-endian numbers and the two views of a vector: each direction undoes the other. -/

namespace Sys2Proof

@[simp] theorem leBytes_length (n v : Nat) : (leBytes n v).length = n := by
  induction n generalizing v with
  | zero => rfl
  | succ n ih => simp [leBytes, ih]

theorem leNat_lt (b : List Byte) : leNat b < 256 ^ b.length := by
  induction b with
  | nil => simp [leNat]
  | cons x xs ih =>
    have hx : x.toNat < 256 := x.isLt
    simp only [leNat, List.length_cons, Nat.pow_succ]
    omega

theorem leNat_leBytes (n v : Nat) : leNat (leBytes n v) = v % 256 ^ n := by
  induction n generalizing v with
  | zero => simp [leBytes, leNat, Nat.mod_one]
  | succ n ih =>
    have h : (BitVec.ofNat 8 v).toNat = v % 256 := by simp
    rw [leBytes, leNat, ih, h, Nat.pow_succ, Nat.mul_comm (256 ^ n) 256, Nat.mod_mul]

theorem leBytes_leNat (b : List Byte) : leBytes b.length (leNat b) = b := by
  induction b with
  | nil => rfl
  | cons x xs ih =>
    have hx : x.toNat < 256 := x.isLt
    have h1 : (x.toNat + 256 * leNat xs) / 256 = leNat xs := by omega
    have h2 : BitVec.ofNat 8 (x.toNat + 256 * leNat xs) = x := by
      apply BitVec.eq_of_toNat_eq
      simp only [BitVec.toNat_ofNat]
      omega
    simp only [leBytes, leNat, List.length_cons, h1, h2, ih]

namespace Machine

@[simp] theorem le64inv_length (w : Word) : (le64inv w).length = 8 := leBytes_length 8 _

@[simp] theorem le64_le64inv (w : Word) : le64 (le64inv w) = w := by
  apply BitVec.eq_of_toNat_eq
  have h : w.toNat < 256 ^ 8 := w.isLt
  have h' : w.toNat < 2 ^ 64 := w.isLt
  simp only [le64, le64inv, leNat_leBytes, BitVec.toNat_ofNat, Nat.mod_eq_of_lt h, Nat.mod_eq_of_lt h']

theorem le64inv_le64 {b : List Byte} (h : b.length = 8) : le64inv (le64 b) = b := by
  have hlt := leNat_lt b
  rw [h] at hlt
  have h64 : leNat b < 2 ^ 64 := hlt
  have e := leBytes_leNat b
  rw [h] at e
  simp only [le64, le64inv, BitVec.toNat_ofNat, Nat.mod_eq_of_lt h64, e]

@[simp] theorem bufOf_length (x : Lanes) : (bufOf x).length = 96 := by
  simp [bufOf]

theorem wordAt_flatMap (l : List Word) (i : Nat) (h : i < l.length) : wordAt (l.flatMap le64inv) i = l[i] := by
  induction l generalizing i with
  | nil => simp at h
  | cons w ws ih =>
    cases i with
    | zero => simp [wordAt]
    | succ i =>
      have h8 : 8 * (i + 1) = (le64inv w).length + 8 * i := by simp only [le64inv_length]; omega
      have := ih i (by simpa using h)
      simpa [wordAt, h8, ← List.drop_drop] using this

@[simp] theorem wordAt_bufOf (x : Lanes) (i : Fin 12) : wordAt (bufOf x) i.val = x[i] := by
  have h := wordAt_flatMap x.toList i.val (by simp)
  simpa [bufOf] using h

@[simp] theorem lanesOf_bufOf (x : Lanes) : lanesOf (bufOf x) = x := by
  apply Vector.ext
  intro i hi
  have h := wordAt_bufOf x ⟨i, hi⟩
  simp only [lanesOf, Vector.getElem_ofFn]
  exact h

theorem take_eight_flatMap (n : Nat) (b : List Byte) (h : b.length = 8 * n) :
    (List.ofFn fun i : Fin n => wordAt b i.val).flatMap le64inv = b := by
  induction n generalizing b with
  | zero => simp_all
  | succ n ih =>
    have hd : (b.drop 8).length = 8 * n := by simp [h]; omega
    have ht : (b.take 8).length = 8 := by simp [h]
    have e := ih (b.drop 8) hd
    have hw : ∀ i : Fin n, wordAt b i.succ.val = wordAt (b.drop 8) i.val := by
      intro i
      simp only [wordAt, List.drop_drop, Fin.val_succ]
      congr 3
      omega
    rw [List.ofFn_succ, List.flatMap_cons]
    simp only [hw, e]
    simp only [wordAt, Fin.val_zero, Nat.mul_zero, List.drop_zero, le64inv_le64 ht, List.take_append_drop]

theorem bufOf_lanesOf {b : List Byte} (h : b.length = 96) : bufOf (lanesOf b) = b := by
  have e := take_eight_flatMap 12 b h
  simpa [bufOf, lanesOf, Vector.toList_ofFn] using e

theorem wordAt_append_zero (u v : List Byte) (h : u.length = 8) : wordAt (u ++ v) 0 = le64 u := by
  simp [wordAt, h]

theorem wordAt_append_one (u v : List Byte) (h : u.length = 8) (hv : v.length = 8) :
    wordAt (u ++ v) 1 = le64 v := by
  have e : (u ++ v).drop (8 * 1) = v := List.drop_left' (by omega)
  rw [wordAt, e, List.take_of_length_le (by omega)]

end Machine

end Sys2Proof
end

