-- ==== Sys2Proof/Laws/Buffer.lean ====
section
/-! SUPPORT. `MemRead` and `MemWrite`: when they answer, and the canonical form of the buffer as cells. -/

namespace Sys2Proof.Machine

theorem memRead_eq_some {x : Lanes} {addr n : Nat} (h : addr + n ≤ 96) :
    memRead x addr n = some (((bufOf x).drop addr).take n) := if_pos h

theorem memRead_length {x : Lanes} {addr n : Nat} {b : List Byte} (h : memRead x addr n = some b) : b.length = n := by
  unfold memRead at h
  split at h
  · rename_i hle
    cases h
    simp only [List.length_take, List.length_drop, bufOf_length]
    simp only [bufLen] at hle
    omega
  · cases h

/-- The bytes after a write: the old ones with the written ones in their place (`00_scope.md` section 5). -/
theorem bufOf_memWrite {x y : Lanes} {addr : Nat} {v : List Byte} (h : memWrite x addr v = some y) :
    addr + v.length ≤ 96 ∧ bufOf y = (bufOf x).take addr ++ v ++ (bufOf x).drop (addr + v.length) := by
  unfold memWrite at h
  split at h
  · rename_i hle
    simp only [bufLen] at hle
    cases h
    refine ⟨hle, bufOf_lanesOf ?_⟩
    simp only [List.length_append, List.length_take, List.length_drop, bufOf_length]
    omega
  · cases h

theorem memWrite_isSome {x : Lanes} {addr : Nat} {v : List Byte} (h : addr + v.length ≤ 96) :
    (memWrite x addr v).isSome := by
  simp [memWrite, bufLen, h]

theorem memWrite_nil (x : Lanes) {addr : Nat} (h : addr ≤ 96) : memWrite x addr [] = some x := by
  simp [memWrite, bufLen, h]

/-- The canonical form holds of the cells of every vector, so of every memory an operation makes and of the one after
reset. -/
theorem memCells_wf (x : Lanes) : memWf (memCells x) := by
  simp [memWf, memCells, List.map_fst_zip]

/-- Equal buffers are equal lists of cells, and the other way round. -/
theorem memCells_inj {x y : Lanes} (h : memCells x = memCells y) : x = y := by
  have hb : bufOf x = bufOf y := by
    have := congrArg (List.map Prod.snd) h
    simpa [memCells, List.map_snd_zip] using this
  have := congrArg lanesOf hb
  simpa using this

theorem memCells_memWrite {x y : Lanes} {addr : Nat} {v : List Byte} (_ : memWrite x addr v = some y) :
    memWf (memCells y) := memCells_wf y

theorem memCells_reset : memWf (memCells State.reset.ctx.words) := memCells_wf _

end Sys2Proof.Machine
end

