-- ==== Sys2Proof/Laws/Decode.lean ====
section
/-! SUPPORT. What the decoder can answer, said once. -/

namespace Sys2Proof

/-- The opcode looked up from a command's own header is that command. -/
theorem commandOf_opcode (i : Instr) (h : Header) (hopc : h.opc = opcodeOf i) (harg : h.arg = i.arg)
    (hlen : h.len.toNat = i.len) : commandOf h i.payload = some i := by
  obtain ⟨opc, arg, len⟩ := h
  cases i <;> simp only [opcodeOf, Instr.arg, Instr.len] at hopc harg hlen <;> subst hopc <;> subst harg <;>
    simp_all [commandOf, Instr.payload, ← BitVec.toNat_inj]

/-- A record that is looked up as a command has that command's opcode and `ARG`. -/
theorem opcode_of_commandOf {h : Header} {payload : List Byte} {i : Instr} (e : commandOf h payload = some i) :
    opcodeOf i = h.opc ∧ i.arg = h.arg := by
  unfold commandOf at e
  split at e <;> cases e <;> simp_all [opcodeOf, Instr.arg]

/-- Every case of the decoder. -/
theorem decode_cases (bs : List Byte) :
    (bs = [] ∧ decode bs = .noRecord) ∨
    (∃ b0 b1 b2 b3 tail, bs = b0 :: b1 :: b2 :: b3 :: tail ∧ payloadLen (headerOf b0 b1 b2 b3) ≤ tail.length ∧
      ((∃ i, commandOf (headerOf b0 b1 b2 b3) (tail.take (payloadLen (headerOf b0 b1 b2 b3))) = some i ∧
          decode bs = .command i (tail.drop (payloadLen (headerOf b0 b1 b2 b3)))) ∨
        (commandOf (headerOf b0 b1 b2 b3) (tail.take (payloadLen (headerOf b0 b1 b2 b3))) = none ∧
          decode bs = .illegalOpcode (headerOf b0 b1 b2 b3) (tail.drop (payloadLen (headerOf b0 b1 b2 b3)))))) ∨
    decode bs = .partialRecord := by
  match bs with
  | [] => exact .inl ⟨rfl, rfl⟩
  | [_] => exact .inr (.inr rfl)
  | [_, _] => exact .inr (.inr rfl)
  | [_, _, _] => exact .inr (.inr rfl)
  | b0 :: b1 :: b2 :: b3 :: tail =>
    by_cases h : tail.length < payloadLen (headerOf b0 b1 b2 b3)
    · exact .inr (.inr (by simp [decode, h]))
    · refine .inr (.inl ⟨b0, b1, b2, b3, tail, rfl, by omega, ?_⟩)
      cases e : commandOf (headerOf b0 b1 b2 b3) (tail.take (payloadLen (headerOf b0 b1 b2 b3))) with
      | some i => exact .inl ⟨i, rfl, by simp [decode, h, e]⟩
      | none => exact .inr ⟨rfl, by simp [decode, h, e]⟩

end Sys2Proof
end

