-- ==== Sys2Proof/Laws/Field.lean ====
section
/-! SUPPORT. The field functions as natural numbers: one lemma per function, cited instead of unfolding it. -/

namespace Sys2Proof.Machine

theorem toNat_ofNat_mod (n : Nat) : (BitVec.ofNat 64 (n % modulus)).toNat = n % modulus := by
  have h : n % modulus < modulus := Nat.mod_lt _ (by decide)
  simp only [BitVec.toNat_ofNat]
  exact Nat.mod_eq_of_lt (by simp only [modulus] at h ⊢; omega)

theorem residue_toNat (w : Word) : (residue w).toNat = w.toNat % modulus := toNat_ofNat_mod _

theorem fadd_toNat (a b : Word) : (fadd a b).toNat = (a.toNat + b.toNat) % modulus := toNat_ofNat_mod _

theorem fmul_toNat (a b : Word) : (fmul a b).toNat = a.toNat * b.toNat % modulus := toNat_ofNat_mod _

theorem fred_toNat (lo hi : Word) : (fred lo hi).toNat = (hi.toNat * 2 ^ 64 + lo.toNat) % modulus :=
  toNat_ofNat_mod _

theorem fsub_toNat (a b : Word) :
    ((fsub a b).toNat : Int) = ((a.toNat : Int) - (b.toNat : Int)) % (modulus : Int) := by
  have h0 := Int.emod_nonneg ((a.toNat : Int) - (b.toNat : Int)) (show (modulus : Int) ≠ 0 by decide)
  have h1 := Int.emod_lt_of_pos ((a.toNat : Int) - (b.toNat : Int)) (show (0 : Int) < (modulus : Int) by decide)
  have h2 : (((a.toNat : Int) - (b.toNat : Int)) % (modulus : Int)).toNat < 2 ^ 64 := by
    simp only [modulus] at h1 ⊢
    omega
  rw [fsub, BitVec.toNat_ofNat, Nat.mod_eq_of_lt h2, Int.toNat_of_nonneg h0]

theorem fpowFuel_toNat (fuel : Nat) (a : Word) (e : Nat) (h : e < 2 ^ fuel) :
    (fpowFuel fuel a e).toNat = a.toNat ^ e % modulus := by
  induction fuel generalizing a e with
  | zero =>
    have : e = 0 := by simpa using h
    subst this
    simp [fpowFuel, modulus]
  | succ fuel ih =>
    have hlt : e / 2 < 2 ^ fuel := by rw [Nat.pow_succ] at h; omega
    have sq : (fmul a a).toNat ^ (e / 2) % modulus = a.toNat ^ (2 * (e / 2)) % modulus := by
      rw [fmul_toNat, ← Nat.pow_mod, ← Nat.pow_two, ← Nat.pow_mul]
    have half := ih (fmul a a) (e / 2) hlt
    rw [sq] at half
    unfold fpowFuel
    split
    · rename_i odd
      rw [fmul_toNat, half, Nat.mul_mod_mod, ← Nat.pow_succ']
      congr 2
      omega
    · rename_i even
      rw [half]
      congr 2
      omega

/-- `fpow(a, e) = (a^e) mod p` (`40_field.md` R70). -/
theorem fpow_toNat (a : Word) (e : Nat) : (fpow a e).toNat = a.toNat ^ e % modulus :=
  fpowFuel_toNat _ a e Nat.lt_log2_self

theorem feltWord_toNat (f : Felt) : (feltWord f).toNat = f.val := by
  have h := f.isLt
  simp only [feltWord, BitVec.toNat_ofNat]
  exact Nat.mod_eq_of_lt (by simp only [modulus] at h; omega)

theorem canonical_of_toNat {w : Word} {n : Nat} (h : w.toNat = n % modulus) : Canonical w := by
  rw [Canonical, h]
  exact Nat.mod_lt _ (by decide)

end Sys2Proof.Machine
end

