-- ==== Sys2Proof/Laws/State.lean ====
section
/-! SUPPORT. One lemma per field per update of the state and of the context, and what the operations that end a
command answer. -/

namespace Sys2Proof.Machine

@[simp] theorem emit_ctx (r : Response) (s : State) : (emit r s).ctx = s.ctx := rfl
@[simp] theorem emit_cmd (r : Response) (s : State) : (emit r s).cmd = s.cmd := rfl
@[simp] theorem emit_rsp (r : Response) (s : State) : (emit r s).rsp = s.rsp ++ [r] := rfl
@[simp] theorem emit_index (r : Response) (s : State) : (emit r s).index = s.index := rfl

@[simp] theorem setCtx_ctx (c : Context) (s : State) : (setCtx c s).ctx = c := rfl
@[simp] theorem setCtx_cmd (c : Context) (s : State) : (setCtx c s).cmd = s.cmd := rfl
@[simp] theorem setCtx_rsp (c : Context) (s : State) : (setCtx c s).rsp = s.rsp := rfl
@[simp] theorem setCtx_index (c : Context) (s : State) : (setCtx c s).index = s.index := rfl

@[simp] theorem advance_ctx (rest : List Byte) (s : State) : (advance rest s).ctx = s.ctx := rfl
@[simp] theorem advance_cmd (rest : List Byte) (s : State) : (advance rest s).cmd = rest := rfl
@[simp] theorem advance_rsp (rest : List Byte) (s : State) : (advance rest s).rsp = s.rsp := rfl
@[simp] theorem advance_index (rest : List Byte) (s : State) : (advance rest s).index = s.index + 1 := rfl

@[simp] theorem placeRecord_ctx (r : List Byte) (s : State) : (placeRecord r s).ctx = s.ctx := rfl
@[simp] theorem placeRecord_cmd (r : List Byte) (s : State) : (placeRecord r s).cmd = r ++ s.cmd := rfl
@[simp] theorem placeRecord_rsp (r : List Byte) (s : State) : (placeRecord r s).rsp = s.rsp := rfl
@[simp] theorem placeRecord_index (r : List Byte) (s : State) : (placeRecord r s).index = s.index := rfl

@[simp] theorem sendBytes_ctx (b : List Byte) (s : State) : (sendBytes b s).ctx = s.ctx := rfl
@[simp] theorem sendBytes_cmd (b : List Byte) (s : State) : (sendBytes b s).cmd = s.cmd ++ b := rfl
@[simp] theorem sendBytes_rsp (b : List Byte) (s : State) : (sendBytes b s).rsp = s.rsp := rfl
@[simp] theorem sendBytes_index (b : List Byte) (s : State) : (sendBytes b s).index = s.index := rfl

@[simp] theorem respond_eq_next {data : List Byte} {s t : State} :
    respond data s = .next t ↔ t = emit ⟨.ok, data⟩ s := by
  simp only [respond, Host.Outcome.next.injEq]
  exact eq_comm

@[simp] theorem raise_eq_next {c : FaultCode} {s t : State} :
    raise c s = .next t ↔ t = emit ⟨.fault c, []⟩ s := by
  simp only [raise, Host.Outcome.next.injEq]
  exact eq_comm

end Sys2Proof.Machine
end

