-- ==== Sys2Proof/Laws/Operands.lean ====
section
/-! SUPPORT. What each operand form can do, said once: it hands its operands on, or it takes the fault of the first
check that fails, in the order of `60_exceptions.md` R104. -/

namespace Sys2Proof.Machine

theorem withZeroArg_cases (arg : Byte) (s : State) (k : Result) :
    (arg = 0 ∧ withZeroArg arg s k = k) ∨ (arg ≠ 0 ∧ withZeroArg arg s k = raise .illegalOperand s) := by
  unfold withZeroArg
  split
  · exact .inl ⟨‹_›, rfl⟩
  · exact .inr ⟨‹_›, rfl⟩

theorem withLength_cases (n : Nat) (payload : List Byte) (s : State) (k : Result) :
    (payload.length = n ∧ withLength n payload s k = k) ∨
    (payload.length ≠ n ∧ withLength n payload s k = raise .badLength s) := by
  unfold withLength
  split
  · exact .inl ⟨‹_›, rfl⟩
  · exact .inr ⟨‹_›, rfl⟩

theorem withPhase_cases (need : Phase) (s : State) (k : Result) :
    (s.ctx.phase = need ∧ withPhase need s k = k) ∨
    (s.ctx.phase ≠ need ∧ withPhase need s k = raise .illegalState s) := by
  unfold withPhase
  split
  · exact .inl ⟨‹_›, rfl⟩
  · exact .inr ⟨‹_›, rfl⟩

theorem withNone_cases (arg : Byte) (payload : List Byte) (s : State) (k : Result) :
    (arg = 0 ∧ payload.length = 0 ∧ withNone arg payload s k = k) ∨
    (arg ≠ 0 ∧ withNone arg payload s k = raise .illegalOperand s) ∨
    (arg = 0 ∧ payload.length ≠ 0 ∧ withNone arg payload s k = raise .badLength s) := by
  unfold withNone
  rcases withZeroArg_cases arg s (withLength 0 payload s k) with ⟨h, e⟩ | ⟨h, e⟩ <;> rw [e]
  · rcases withLength_cases 0 payload s k with ⟨h', e'⟩ | ⟨h', e'⟩ <;> rw [e']
    · exact .inl ⟨h, h', rfl⟩
    · exact .inr (.inr ⟨h, h', rfl⟩)
  · exact .inr (.inl ⟨h, rfl⟩)

theorem withScalars_cases (arg : Byte) (payload : List Byte) (s : State) (k : Word → Word → Result) :
    (arg = 0 ∧ payload.length = 16 ∧ withScalars arg payload s k = k (wordAt payload 0) (wordAt payload 1)) ∨
    (arg ≠ 0 ∧ withScalars arg payload s k = raise .illegalOperand s) ∨
    (arg = 0 ∧ payload.length ≠ 16 ∧ withScalars arg payload s k = raise .badLength s) := by
  unfold withScalars
  rcases withZeroArg_cases arg s (withLength 16 payload s (k (wordAt payload 0) (wordAt payload 1)))
    with ⟨h, e⟩ | ⟨h, e⟩ <;> rw [e]
  · rcases withLength_cases 16 payload s (k (wordAt payload 0) (wordAt payload 1)) with ⟨h', e'⟩ | ⟨h', e'⟩ <;> rw [e']
    · exact .inl ⟨h, h', rfl⟩
    · exact .inr (.inr ⟨h, h', rfl⟩)
  · exact .inr (.inl ⟨h, rfl⟩)

theorem withVector_cases (arg : Byte) (payload : List Byte) (s : State) (k : Lanes → Result) :
    (arg = 0 ∧ payload.length = 96 ∧ withVector arg payload s k = k (lanesOf payload)) ∨
    (arg ≠ 0 ∧ withVector arg payload s k = raise .illegalOperand s) ∨
    (arg = 0 ∧ payload.length ≠ 96 ∧ withVector arg payload s k = raise .badLength s) := by
  unfold withVector
  rcases withZeroArg_cases arg s (withLength 96 payload s (k (lanesOf payload))) with ⟨h, e⟩ | ⟨h, e⟩ <;> rw [e]
  · rcases withLength_cases 96 payload s (k (lanesOf payload)) with ⟨h', e'⟩ | ⟨h', e'⟩ <;> rw [e']
    · exact .inl ⟨h, h', rfl⟩
    · exact .inr (.inr ⟨h, h', rfl⟩)
  · exact .inr (.inl ⟨h, rfl⟩)

theorem withVectorRound_cases (arg : Byte) (payload : List Byte) (s : State) (k : Fin 7 → Lanes → Result) :
    (∃ r : Fin 7, arg.toNat = r.val ∧ payload.length = 96 ∧
      withVectorRound arg payload s k = k r (lanesOf payload)) ∨
    (6 < arg.toNat ∧ withVectorRound arg payload s k = raise .illegalOperand s) ∨
    (arg.toNat ≤ 6 ∧ payload.length ≠ 96 ∧ withVectorRound arg payload s k = raise .badLength s) := by
  unfold withVectorRound
  split
  · rename_i h
    rcases withLength_cases 96 payload s (k ⟨arg.toNat, h⟩ (lanesOf payload)) with ⟨h', e'⟩ | ⟨h', e'⟩ <;> rw [e']
    · exact .inl ⟨⟨arg.toNat, h⟩, rfl, h', rfl⟩
    · exact .inr (.inr ⟨by omega, h', rfl⟩)
  · exact .inr (.inl ⟨by omega, rfl⟩)

theorem withBytesIn_cases (arg : Byte) (payload : List Byte) (s : State) (k : List Byte → Result) :
    (arg = 0 ∧ withBytesIn arg payload s k = k payload) ∨
    (arg ≠ 0 ∧ withBytesIn arg payload s k = raise .illegalOperand s) :=
  withZeroArg_cases arg s (k payload)

theorem withBytesOut_cases (arg : Byte) (len : BitVec 16) (s : State) (k : Nat → Result) :
    (arg = 0 ∧ withBytesOut arg len s k = k len.toNat) ∨
    (arg ≠ 0 ∧ withBytesOut arg len s k = raise .illegalOperand s) :=
  withZeroArg_cases arg s (k len.toNat)

end Sys2Proof.Machine
end

