-- ==== Sys2Proof/Laws/PerInstr.lean ====
section
/-! SUPPORT. The per-instruction family `Shape`: each command, as syntax, is found again from its own header and
payload, and its record is four header bytes and its payload. -/

namespace Sys2Proof.Laws.Shape

/-- The record of a command is as long as its header announces, and the opcode table gives the command back
(`30_encoding.md` R43, R45, R48). -/
def Statement (i : Instr) : Prop :=
  (encode i).length = 4 + i.payload.length ∧
  (i.Encodable → commandOf ⟨opcodeOf i, i.arg, BitVec.ofNat 16 i.len⟩ i.payload = some i)

/-- Every command whose `LEN` fits its field. -/
theorem of_len (i : Instr) (h : i.Encodable → i.len < 65536) : Statement i := by
  refine ⟨by simp [encode]; omega, fun e => commandOf_opcode i _ rfl rfl ?_⟩
  have := h e
  simp only [BitVec.toNat_ofNat]
  omega

theorem fadd (arg : Byte) (payload : List Byte) : Statement (.fadd arg payload) := of_len _ id
theorem fsub (arg : Byte) (payload : List Byte) : Statement (.fsub arg payload) := of_len _ id
theorem fmul (arg : Byte) (payload : List Byte) : Statement (.fmul arg payload) := of_len _ id
theorem fred (arg : Byte) (payload : List Byte) : Statement (.fred arg payload) := of_len _ id
theorem mds (arg : Byte) (payload : List Byte) : Statement (.mds arg payload) := of_len _ id
theorem ark1 (arg : Byte) (payload : List Byte) : Statement (.ark1 arg payload) := of_len _ id
theorem ark2 (arg : Byte) (payload : List Byte) : Statement (.ark2 arg payload) := of_len _ id
theorem sbox (arg : Byte) (payload : List Byte) : Statement (.sbox arg payload) := of_len _ id
theorem isbox (arg : Byte) (payload : List Byte) : Statement (.isbox arg payload) := of_len _ id
theorem round (arg : Byte) (payload : List Byte) : Statement (.round arg payload) := of_len _ id
theorem perm (arg : Byte) (payload : List Byte) : Statement (.perm arg payload) := of_len _ id
theorem init (arg : Byte) (payload : List Byte) : Statement (.init arg payload) := of_len _ id
theorem inject (arg : Byte) (payload : List Byte) : Statement (.inject arg payload) := of_len _ id
theorem flip (arg : Byte) (payload : List Byte) : Statement (.flip arg payload) := of_len _ id
theorem extract (arg : Byte) (len : BitVec 16) : Statement (.extract arg len) := of_len _ fun _ => len.isLt

end Sys2Proof.Laws.Shape
end

