-- ==== Sys2Proof/Laws/Sponge.lean ====
section
/-! SUPPORT. The context's updates field by field, and the loops' first iterations. -/

namespace Sys2Proof.Machine

@[simp] theorem freshContext_words : freshContext.words = Vector.replicate 12 0 := rfl
@[simp] theorem freshContext_dptr : freshContext.dptr = 32 := rfl
@[simp] theorem freshContext_phase : freshContext.phase = .absorbing := rfl

@[simp] theorem permuteCtx_words (t : Tables) (c : Context) : (permuteCtx t c).words = permute t c.words := rfl
@[simp] theorem permuteCtx_dptr (t : Tables) (c : Context) : (permuteCtx t c).dptr = 32 := rfl
@[simp] theorem permuteCtx_phase (t : Tables) (c : Context) : (permuteCtx t c).phase = c.phase := rfl

@[simp] theorem moveCursor_words (n : Nat) (c : Context) : (moveCursor n c).words = c.words := rfl
@[simp] theorem moveCursor_phase (n : Nat) (c : Context) : (moveCursor n c).phase = c.phase := rfl

theorem moveCursor_dptr {n : Nat} {c : Context} (h : c.dptr.toNat + n ≤ 96) :
    (moveCursor n c).dptr.toNat = c.dptr.toNat + n := by
  simp only [moveCursor, BitVec.toNat_ofNat]
  omega

@[simp] theorem flipContext_words (c : Context) : (flipContext c).words = c.words := rfl
@[simp] theorem flipContext_dptr (c : Context) : (flipContext c).dptr = 96 := rfl
@[simp] theorem flipContext_phase (c : Context) : (flipContext c).phase = .squeezing := rfl

theorem absorb_nil (t : Tables) (c : Context) : absorb t [] c = some c := rfl

theorem squeeze_zero (t : Tables) (c : Context) : squeeze t 0 c = some ([], c) := rfl

/-- INJECT ends normally with the context its loop left, or stops with the named fault. -/
theorem finishAbsorb_cases (r : Option Context) (s : State) :
    (∃ c, r = some c ∧ finishAbsorb r s = .next (emit ⟨.ok, []⟩ (setCtx c s))) ∨
    (r = none ∧ finishAbsorb r s = .fault .cursorOutOfRange) := by
  cases r with
  | some c => exact .inl ⟨c, rfl, rfl⟩
  | none => exact .inr ⟨rfl, rfl⟩

/-- EXTRACT ends normally with the bytes and the context its loop left, or stops with the named fault. -/
theorem finishSqueeze_cases (r : Option (List Byte × Context)) (s : State) :
    (∃ out c, r = some (out, c) ∧ finishSqueeze r s = .next (emit ⟨.ok, out⟩ (setCtx c s))) ∨
    (r = none ∧ finishSqueeze r s = .fault .cursorOutOfRange) := by
  cases r with
  | some p => exact .inl ⟨p.1, p.2, rfl, rfl⟩
  | none => exact .inr ⟨rfl, rfl⟩

/-- The window's room is not exceeded. -/
theorem chunk_le (n : Nat) (c : Context) : chunk n c ≤ n := Nat.min_le_left _ _

theorem chunk_fits {n : Nat} {c : Context} (h : c.dptr.toNat ≤ 96) : c.dptr.toNat + chunk n c ≤ 96 := by
  simp only [chunk, rateEnd]
  omega

end Sys2Proof.Machine
end

