-- ==== Sys2Proof/Laws/WellFormed.lean ====
section
/-! SUPPORT. The format checks as propositions, one lemma per format and answer. -/

namespace Sys2Proof

@[simp] theorem allowsArg_vectorRound_true (arg : Byte) :
    Format.vectorRound.allowsArg arg = true ↔ arg.toNat ≤ 6 := by
  simp [Format.allowsArg]

@[simp] theorem allowsArg_vectorRound_false (arg : Byte) :
    Format.vectorRound.allowsArg arg = false ↔ 6 < arg.toNat := by
  rw [← Bool.not_eq_true, allowsArg_vectorRound_true]
  omega

/-- Every format but `VR` requires `ARG = 0`. -/
theorem allowsArg_true_of_ne {f : Format} (h : f ≠ .vectorRound) (arg : Byte) : f.allowsArg arg = true ↔ arg = 0 := by
  cases f <;> simp_all [Format.allowsArg]

theorem allowsLen_true (f : Format) (len : Nat) :
    f.allowsLen len = true ↔
      (f = .noOperand → len = 0) ∧ (f = .scalars → len = 16) ∧ (f = .vector ∨ f = .vectorRound → len = 96) := by
  cases f <;> simp [Format.allowsLen]

end Sys2Proof
end

