-- ==== Sys2Proof/Tests/Slice0.lean ====
section
/-! SUPPORT. Tests. Every expected value is from the spec: the worked encodings of `30_encoding.md` section 8 and the
vectors of `95_test_vectors.md`, whose number stands in the comment of the test. After the tests, one witness for
each statement with hypotheses: a concrete input that meets them. -/

namespace Sys2Proof.Tests

open Sys2Proof.Machine Sys2Proof.Safety

/-! ### Helpers -/

/-- A small state: zero words, the given phase, cursor and pending command bytes. -/
def small (ph : Phase) (d : BitVec 7) (cmd : List Byte) : State :=
  { ctx := { words := Vector.replicate 12 0, dptr := d, phase := ph }, cmd := cmd, rsp := [], index := 0 }

/-- The bytes on the response port of the next state. -/
def answer (r : Result) : Option (List Byte) :=
  match r with
  | .next t => some (rspStream t)
  | .fault _ => none
  | .refused _ => none

/-- The context of the next state. -/
def contextAfter (r : Result) : Option Context :=
  match r with
  | .next t => some t.ctx
  | .fault _ => none
  | .refused _ => none

/-- `CFG_I`: the identity matrix and zero round constants (`95_test_vectors.md`). -/
def cfgI : Tables :=
  { mds := Vector.ofFn fun i : Fin 12 => Vector.ofFn fun j : Fin 12 => if i = j then 1 else 0
    ark1 := Vector.ofFn fun _ : Fin 7 => Vector.ofFn fun _ : Fin 12 => 0
    ark2 := Vector.ofFn fun _ : Fin 7 => Vector.ofFn fun _ : Fin 12 => 0 }

/-- The first row of `T-MDS`. -/
def firstRow : Vector Felt 12 := #v[7, 23, 8, 26, 13, 10, 9, 7, 6, 22, 21, 8]

/-- `CFG_T`: the circulant of that row, `ARK1[r][i] = 12r + i + 1`, `ARK2[r][i] = 1000 + 12r + i`. -/
def cfgT : Tables :=
  { mds := Vector.ofFn fun i : Fin 12 => Vector.ofFn fun j : Fin 12 => firstRow[j - i]
    ark1 := Vector.ofFn fun r : Fin 7 => Vector.ofFn fun i : Fin 12 => Fin.ofNat modulus (12 * r.val + i.val + 1)
    ark2 := Vector.ofFn fun r : Fin 7 => Vector.ofFn fun i : Fin 12 => Fin.ofNat modulus (1000 + 12 * r.val + i.val) }

/-- The all-zero vector. -/
def zeros : Lanes := #v[0, 0, 0, 0, 0, 0, 0, 0, 0, 0, 0, 0]

/-! ### Well-formedness: each check refuses an ill-formed command -/

theorem test_wf_scalars : (Instr.fadd 0 (List.replicate 16 0)).WellFormed := by decide
theorem test_wf_argNotZero : ¬(Instr.fadd 1 (List.replicate 16 0)).WellFormed := by decide
theorem test_wf_roundTooLarge : (Instr.round 6 (List.replicate 96 0)).WellFormed ∧
    ¬(Instr.round 7 (List.replicate 96 0)).WellFormed := by decide
theorem test_wf_lenScalars : ¬(Instr.fred 0 (List.replicate 17 0)).WellFormed := by decide
theorem test_wf_lenVector : ¬(Instr.perm 0 (List.replicate 95 0)).WellFormed := by decide
theorem test_wf_lenNone : ¬(Instr.flip 0 [0]).WellFormed := by decide
theorem test_wf_payloadTooLong : ¬(Instr.inject 0 (List.replicate 65536 0)).WellFormed := by
  intro h
  have h1 : (List.replicate 65536 (0 : Byte)).length < 65536 := h.1
  rw [List.length_replicate] at h1
  omega

/-! ### Decoding: one word or record for every constructor, written from `30_encoding.md` R44, R47, R48 -/

theorem test_decode_fadd : decode [0x01, 0x00, 0x10, 0x00, 1, 0, 0, 0, 0, 0, 0, 0, 2, 0, 0, 0, 0, 0, 0, 0] =
    .command (.fadd 0 [1, 0, 0, 0, 0, 0, 0, 0, 2, 0, 0, 0, 0, 0, 0, 0]) [] := by decide
theorem test_decode_fsub : decode [0x02, 0x00, 0x01, 0x00, 9, 7] = .command (.fsub 0 [9]) [7] := by decide
theorem test_decode_fmul : decode [0x03, 0x02, 0x00, 0x00] = .command (.fmul 2 []) [] := by decide
/-- V-D10. -/
theorem test_decode_fred : decode ([0x04, 0x00, 0x10, 0x00] ++ List.replicate 16 3) =
    .command (.fred 0 (List.replicate 16 3)) [] := by decide
theorem test_decode_mds : decode ([0x10, 0x00, 0x60, 0x00] ++ List.replicate 96 0) =
    .command (.mds 0 (List.replicate 96 0)) [] := by decide
theorem test_decode_ark1 : decode ([0x11, 0x03, 0x60, 0x00] ++ List.replicate 96 0) =
    .command (.ark1 3 (List.replicate 96 0)) [] := by decide
theorem test_decode_ark2 : decode [0x12, 0x05, 0x00, 0x00] = .command (.ark2 5 []) [] := by decide
theorem test_decode_sbox : decode [0x13, 0x00, 0x02, 0x00, 1, 2] = .command (.sbox 0 [1, 2]) [] := by decide
theorem test_decode_isbox : decode [0x14, 0x00, 0x02, 0x00, 1, 2] = .command (.isbox 0 [1, 2]) [] := by decide
/-- V-D5. -/
theorem test_decode_round : decode ([0x15, 0x06, 0x60, 0x00] ++ List.replicate 96 1) =
    .command (.round 6 (List.replicate 96 1)) [] := by decide
theorem test_decode_perm : decode ([0x16, 0x00, 0x60, 0x00] ++ List.replicate 96 1) =
    .command (.perm 0 (List.replicate 96 1)) [] := by decide
/-- V-D1. -/
theorem test_decode_init : decode [0x20, 0x00, 0x00, 0x00] = .command (.init 0 []) [] := by decide
theorem test_decode_inject : decode [0x21, 0x00, 0x02, 0x00, 0xAA, 0xBB] =
    .command (.inject 0 [0xAA, 0xBB]) [] := by decide
theorem test_decode_flip : decode [0x22, 0x00, 0x00, 0x00] = .command (.flip 0 []) [] := by decide
/-- V-D2, and V-D9: no payload follows an EXTRACT header. -/
theorem test_decode_extract : decode [0x23, 0x00, 0x2C, 0x01] = .command (.extract 0 300) [] ∧
    decode [0x23, 0x00, 0x04, 0x00, 0x22, 0, 0, 0] = .command (.extract 0 4) [0x22, 0, 0, 0] := by decide
/-- V-D7, V-D8 and record 2 of P4. -/
theorem test_decode_illegal : decode [0x05, 0x00, 0x00, 0x00] = .illegalOpcode ⟨5, 0, 0⟩ [] ∧
    decode [0x24, 0x00, 0x04, 0x00, 1, 2, 3, 4, 0x20] = .illegalOpcode ⟨0x24, 0, 4⟩ [0x20] ∧
    decode [0xFF, 0x00, 0x03, 0x00, 0xAA, 0xBB, 0xCC] = .illegalOpcode ⟨0xFF, 0, 3⟩ [] := by decide
/-- A record that is not whole. -/
theorem test_decode_partial : decode [0x01, 0x00, 0x10] = .partialRecord ∧
    decode [0x21, 0x00, 0x02, 0x00, 0xAA] = .partialRecord ∧ decode [] = .noRecord := by decide
theorem test_encode : encode (.extract 0 300) = [0x23, 0x00, 0x2C, 0x01] ∧
    encode (.inject 0 [0xAA, 0xBB]) = [0x21, 0x00, 0x02, 0x00, 0xAA, 0xBB] := by decide
theorem test_tableWord : decodeTableWord 32 0x012C0023 = some (.extract 0 300) ∧
    decodeTableWord 32 0x00030021 = some (.inject 0 [0, 0, 0]) ∧ decodeTableWord 32 0x00000000 = none := by decide

/-! ### Field arithmetic -/

/-- V-A1 to V-A5, V-A7, V-A8, V-A10. -/
theorem test_fadd : fadd 0 0 = 0 ∧ fadd 0xFFFFFFFF00000000 1 = 0 ∧
    fadd 0xFFFFFFFF00000000 0xFFFFFFFF00000000 = 0xFFFFFFFEFFFFFFFF ∧
    fadd 0x8000000000000000 0x8000000000000000 = 0x00000000FFFFFFFF ∧
    fadd 0x0000000100000000 0xFFFFFFFE00000001 = 0 ∧ fadd 0xFFFFFFFF00000000 0x00000000FFFFFFFF = 0xFFFFFFFE ∧
    fadd 0xAB54A98CEB1F0AD2 0x891087B8E3B70CB1 = 0x34653146CED61782 := by decide
/-- V-A11 to V-A15: non-canonical operands. -/
theorem test_fadd_nonCanonical : fadd 0xFFFFFFFFFFFFFFFF 0xFFFFFFFFFFFFFFFF = 0x00000001FFFFFFFC ∧
    fadd 0xFFFFFFFFFFFFFFFF 1 = 0xFFFFFFFF ∧ fadd 0xFFFFFFFF00000001 0xFFFFFFFF00000001 = 0 ∧
    fadd 0xFFFFFFFF00000002 0xFFFFFFFF00000000 = 0 := by decide
/-- V-B2 to V-B5, V-B7. -/
theorem test_fsub : fsub 7 7 = 0 ∧ fsub 0 1 = 0xFFFFFFFF00000000 ∧ fsub 5 7 = 0xFFFFFFFEFFFFFFFF ∧
    fsub 0 0xFFFFFFFF00000000 = 1 ∧ fsub 0x0000000100000000 0x0000000100000001 = 0xFFFFFFFF00000000 := by decide
/-- V-B10 to V-B14. -/
theorem test_fsub_nonCanonical : fsub 0xFFFFFFFFFFFFFFFF 0 = 0xFFFFFFFE ∧
    fsub 0 0xFFFFFFFFFFFFFFFF = 0xFFFFFFFE00000003 ∧ fsub 1 0xFFFFFFFFFFFFFFFF = 0xFFFFFFFE00000004 ∧
    fsub 0xFFFFFFFF00000001 0xFFFFFFFF00000000 = 1 ∧ fsub 0xFFFFFFFFFFFFFFFF 0xFFFFFFFFFFFFFFFF = 0 := by decide
/-- V-M3, V-M5, V-M6, V-M8, V-M12. -/
theorem test_fmul : fmul 0xFFFFFFFF00000000 0xFFFFFFFF00000000 = 1 ∧
    fmul 0x0000000100000000 0x0000000100000000 = 0xFFFFFFFF ∧
    fmul 0x0001000000000000 0x0001000000000000 = 0xFFFFFFFF00000000 ∧
    fmul 0xFFFFFFFF 0xFFFFFFFF = 0xFFFFFFFE00000001 ∧
    fmul 0xDEADBEEFCAFEBABE 0x0123456789ABCDEF = 0x6D692A11FA948166 := by decide
/-- V-M14 to V-M17. -/
theorem test_fmul_nonCanonical : fmul 0xFFFFFFFFFFFFFFFF 0xFFFFFFFFFFFFFFFF = 0xFFFFFFFC00000004 ∧
    fmul 0xFFFFFFFF00000001 0x3039 = 0 ∧ fmul 0xFFFFFFFF00000002 0xFFFFFFFF00000002 = 1 ∧
    fmul 0xFFFFFFFFFFFFFFFF 1 = 0xFFFFFFFE := by decide
/-- V-R2, V-R6, V-R7, V-R10, V-R11, V-R13, V-R14: `lo` comes first. -/
theorem test_fred : fred 0xFFFFFFFF00000001 0 = 0 ∧ fred 5 1 = 0x0000000100000004 ∧
    fred 0 0x0000000100000000 = 0xFFFFFFFF00000000 ∧ fred 0 0xFFFFFFFFFFFFFFFF = 0xFFFFFFFD00000002 ∧
    fred 0xFFFFFFFFFFFFFFFF 0xFFFFFFFFFFFFFFFF = 0xFFFFFFFE00000000 ∧
    fred 0 0xFFFFFFFF00000000 = 0xFFFFFFFE00000002 ∧ fred 0xFFFFFFFF 0x0000000100000000 = 0xFFFFFFFE := by decide
/-- V-T5 to V-T8: the reduction algorithm with a carry, with a borrow, with both and with the last subtraction. -/
theorem test_reduceWide : reduceWide 0xFFFFFFFFFFFFFFFF 0xFFFFFFFFFFFFFFFF = 0xFFFFFFFE00000000 ∧
    reduceT0 0 0xFFFFFFFFFFFFFFFF = 0xFFFFFFFE00000002 ∧ reduceT1 0xFFFFFFFFFFFFFFFF = 0xFFFFFFFE00000001 ∧
    reduceWide 0 0xFFFFFFFFFFFFFFFF = 0xFFFFFFFD00000002 ∧ reduceWide 0 0xFFFFFFFE00000001 = 1 ∧
    reduceWide 1 0xFFFFFFFFFFFFFFFE = 0xFFFFFFFC00000004 := by decide
/-- The products of V-T7 and V-T8 (`40_field.md` R68). -/
theorem test_mulHalves : mulHi 0xFFFFFFFF00000000 0xFFFFFFFF00000000 = 0xFFFFFFFE00000001 ∧
    mulLo 0xFFFFFFFF00000000 0xFFFFFFFF00000000 = 0 ∧ mulHi 0xFFFFFFFFFFFFFFFF 0xFFFFFFFFFFFFFFFF = 0xFFFFFFFFFFFFFFFE ∧
    mulLo 0xFFFFFFFFFFFFFFFF 0xFFFFFFFFFFFFFFFF = 1 := by decide
/-- V-P3 to V-P6d. -/
theorem test_powers : fpow 2 alpha = 128 ∧ fpow 2 invAlpha = 36028797018963968 ∧
    fpow 3 invAlpha = 0x349433B852F92756 ∧ fpow 5 invAlpha = 0x83CFC89AF444EB93 ∧
    fpow 0xFFFFFFFF00000000 invAlpha = 0xFFFFFFFF00000000 ∧ fpow 0x0000000100000000 alpha = 0x0000000100000000 ∧
    fpow 0xFFFFFFFF00000001 alpha = 0 ∧ fpow 0xFFFFFFFF00000002 invAlpha = 1 := by decide
/-- Records 1, 2, 3 and 9 of P1, in the phase after reset: the whole response record. -/
theorem test_exec_scalars :
    answer (exec (.fadd 0 [0, 0, 0, 0, 0xFF, 0xFF, 0xFF, 0xFF, 1, 0, 0, 0, 0, 0, 0, 0]) (small .uninit 0 [])) =
      some [0, 0, 8, 0, 0, 0, 0, 0, 0, 0, 0, 0] ∧
    answer (exec (.fsub 0 [0, 0, 0, 0, 0, 0, 0, 0, 1, 0, 0, 0, 0, 0, 0, 0]) (small .uninit 0 [])) =
      some [0, 0, 8, 0, 0, 0, 0, 0, 0xFF, 0xFF, 0xFF, 0xFF] ∧
    answer (exec (.fmul 0 [0, 0, 0, 0, 0xFF, 0xFF, 0xFF, 0xFF, 0, 0, 0, 0, 0xFF, 0xFF, 0xFF, 0xFF])
      (small .uninit 0 [])) = some [0, 0, 8, 0, 1, 0, 0, 0, 0, 0, 0, 0] ∧
    answer (exec (.fred 0 (List.replicate 16 0xFF)) (small .uninit 0 [])) =
      some [0, 0, 8, 0, 0, 0, 0, 0, 0xFE, 0xFF, 0xFF, 0xFF] := by decide

/-! ### Permutation -/

/-- V-Q1: column 2 of the matrix, so rows and columns are not swapped. -/
theorem test_mds_column : mds cfgT #v[0, 0, 1, 0, 0, 0, 0, 0, 0, 0, 0, 0] =
    #v[8, 23, 7, 8, 21, 22, 6, 7, 9, 10, 13, 26] := by decide
/-- V-Q3. -/
theorem test_mds : mds cfgT #v[0, 1, 2, 3, 4, 5, 6, 7, 8, 9, 10, 11] =
    #v[866, 930, 838, 734, 822, 898, 950, 990, 994, 842, 906, 790] := by decide
/-- V-Q4. -/
theorem test_ark1 : ark1 cfgT 3 zeros = #v[37, 38, 39, 40, 41, 42, 43, 44, 45, 46, 47, 48] := by decide
/-- V-Q4a: every sum wraps past `p`. -/
theorem test_ark1_wraps : (ark1 cfgT 0 (Vector.replicate 12 0xFFFFFFFF00000000))[11] = 11 := by decide
/-- V-Q5a. -/
theorem test_ark2 : ark2 cfgT 6 zeros =
      #v[1072, 1073, 1074, 1075, 1076, 1077, 1078, 1079, 1080, 1081, 1082, 1083] ∧
    (ark2 cfgT 0 #v[18446744073709551615, 0, 0, 0, 0, 0, 0, 0, 0, 0, 0, 0])[0] = 4294968294 := by decide
/-- V-Q6 step 3. -/
theorem test_sbox : sbox #v[1, 2, 3, 4, 5, 6, 7, 8, 9, 10, 11, 12] =
    #v[1, 128, 2187, 16384, 78125, 279936, 823543, 2097152, 4782969, 10000000, 19487171, 35831808] := by decide
/-- V-Q6 step 6. -/
theorem test_isbox : (isbox #v[970937236, 1307630007, 1058244626, 542078089, 656666316, 812410391, 968169946, 1191469833,
    1391840792, 907679803, 1194922026, 743865641])[0] = 0x252C486DC2B0E6FE := by decide
/-- V-Q6: round 0 from the all-zero vector. -/
theorem test_round : oneRound cfgT 0 zeros = #v[0x252C486DC2B0E6FE, 0xAB961C47A8BC81E5, 0x4C9E6E33614D47FC,
    0x8083054F1F8798BD, 0x2964AE9C9322439A, 0xD023A34F762E1AC1, 0x1A8DAC4945AEE74A, 0xF54AD6A7BB59FCC7,
    0x41EF1924118A5BEC, 0x70CE136589E75AF9, 0xA5E83E5C6FC05A81, 0x60CD6B4BCB8E4B68] := by decide
/-- V-Q7. -/
theorem test_permute : permute cfgT zeros = #v[0x966E8C114790D461, 0x1059B8BDEB9A8421, 0x520AC61D0403DC37,
    0x4A3C9EB57582452E, 0xA02F2EF1464C60DF, 0xAFE0423ED6E6E614, 0x2DB1FD87A0EAB59D, 0xF2C77D928DA0BC5A,
    0x6FDEA96F31B64A73, 0x89A50C077EC9AA6B, 0x037C2DB627CF1846, 0x292C28C45568D304] := by decide +kernel
/-- P4, records 8 and 9: a vector command takes its faults in the order of R104. -/
theorem test_exec_vectorFaults :
    answer (exec (.ark1 7 (List.replicate 8 0)) (small .uninit 0 [])) = some [2, 0, 0, 0] ∧
    answer (exec (.perm 0 (List.replicate 95 0)) (small .uninit 0 [])) = some [3, 0, 0, 0] := by decide

/-! ### Sponge -/

/-- P2, command 2, from a context with non-zero words. -/
theorem test_init : contextAfter (exec (.init 0 [])
      { ctx := { words := Vector.replicate 12 7, dptr := 96, phase := .squeezing }, cmd := [], rsp := [], index := 0 }) =
    some { words := Vector.replicate 12 0, dptr := 32, phase := .absorbing } := by decide
/-- P4, records 3 to 5: operand before length. -/
theorem test_init_faults : answer (exec (.init 1 []) (small .uninit 0 [])) = some [2, 0, 0, 0] ∧
    answer (exec (.init 0 [0x11, 0x22]) (small .uninit 0 [])) = some [3, 0, 0, 0] ∧
    answer (exec (.init 1 [0x33, 0x44]) (small .uninit 0 [])) = some [2, 0, 0, 0] := by decide
/-- P2, command 4: ten bytes at the cursor, little-endian in the words, and the cursor at 42. -/
theorem test_inject : contextAfter (exec (.inject 0 [1, 2, 3, 4, 5, 6, 7, 8, 9, 10]) (small .absorbing 32 [])) =
    some { words := #v[0, 0, 0, 0, 0x0807060504030201, 0x0A09, 0, 0, 0, 0, 0, 0], dptr := 42, phase := .absorbing } := by
  decide
/-- V-H2 and P2 under `CFG_I`: 65 bytes leave the 65th at offset 32, over the first byte of the block before, and the
cursor at 33. -/
theorem test_absorb_block : ((absorb cfgI (List.replicate 64 2 ++ [0x41]) freshContext).map
      fun c => (c.dptr, c.words[4], c.words[11])) =
    some (33, 0x0202020202020241, 0x0202020202020202) := by decide +kernel
/-- P2, command 6, and P4, record 14. -/
theorem test_flip : contextAfter (exec (.flip 0 []) (small .absorbing 33 [])) =
      some { words := Vector.replicate 12 0, dptr := 96, phase := .squeezing } ∧
    answer (exec (.flip 0 [0x99]) (small .absorbing 33 [])) = some [3, 0, 0, 0] ∧
    answer (exec (.flip 0 []) (small .squeezing 96 [])) = some [4, 0, 0, 0] := by decide
/-- P2, commands 1, 8, 9 and P4, record 10: the phase is checked last. -/
theorem test_phases : answer (exec (.extract 0 8) (small .uninit 0 [])) = some [4, 0, 0, 0] ∧
    answer (exec (.inject 0 [0xAA]) (small .squeezing 96 [])) = some [4, 0, 0, 0] ∧
    answer (exec (.extract 0 0) (small .squeezing 96 [])) = some [0, 0, 0, 0] ∧
    answer (exec (.extract 5 0) (small .uninit 0 [])) = some [2, 0, 0, 0] := by decide
/-- EXTRACT inside a window: the bytes at the cursor, first squeezed first. -/
theorem test_extract : answer (exec (.extract 0 3)
      { ctx := { words := #v[9, 9, 9, 9, 0x0807060504030201, 0, 0, 0, 0, 0, 0, 0], dptr := 33, phase := .squeezing }
        cmd := [], rsp := [], index := 0 }) = some [0, 0, 3, 0, 2, 3, 4] := by decide
/-- V-H3 under `CFG_I`: 65 bytes after FLIP leave the cursor at 33, 64 at 96, none at 96. -/
theorem test_squeeze_cursor : ((squeeze cfgI 64 (flipContext freshContext)).map fun r => r.2.dptr) = some 96 ∧
    ((squeeze cfgI 65 (flipContext freshContext)).map fun r => r.2.dptr) = some 33 ∧
    ((squeeze cfgI 0 (flipContext freshContext)).map fun r => r.2.dptr) = some 96 := by decide +kernel

/-! ### The step, the ports and reset -/

/-- P4, records 1 and 12: the record is off the port, one response is on the other. -/
theorem test_step : step (small .uninit 0 [0x00, 0, 0, 0, 0x20, 0, 0, 0]) = .next
      { ctx := { words := Vector.replicate 12 0, dptr := 0, phase := .uninit }
        cmd := [0x20, 0, 0, 0], rsp := [⟨.fault .illegalOpcode, []⟩], index := 1 } ∧
    answer (step (small .uninit 0 [0x20, 0, 0, 0])) = some [0, 0, 0, 0] := ⟨rfl, by decide⟩
/-- `fadd 1, 2` as the first command after reset: P4, record 15. -/
theorem test_step_fetchWord : answer (step (State.reset.withFetchWord 32 0x00100001)) =
      some [0, 0, 8, 0, 0, 0, 0, 0, 0, 0, 0, 0] ∧
    answer (step (sendBytes [1, 0, 16, 0, 1, 0, 0, 0, 0, 0, 0, 0, 2, 0, 0, 0, 0, 0, 0, 0] State.reset)) =
      some [0, 0, 8, 0, 3, 0, 0, 0, 0, 0, 0, 0] := by decide
/-- P2, command 1: EXTRACT before INIT. -/
theorem test_reset : answer (step (sendBytes [0x23, 0x00, 0x08, 0x00] (hostReset (small .squeezing 40 [1])))) =
    some [4, 0, 0, 0] := by decide
/-- V-S8's first lines as text (`30_encoding.md` R54). -/
theorem test_assembler : programBytes "init ; start\nextract 300\ninject hex\"AABB\"\nfadd 1, 0x2" =
    some [0x20, 0, 0, 0, 0x23, 0, 0x2C, 0x01, 0x21, 0, 2, 0, 0xAA, 0xBB,
      1, 0, 16, 0, 1, 0, 0, 0, 0, 0, 0, 0, 2, 0, 0, 0, 0, 0, 0, 0] := by decide

/-! ### Witnesses: an input that meets the hypotheses of each statement that has some -/

/-- The shortest and a faulting record, a round index and an EXTRACT of the longest length. -/
theorem witness_DecodeOfEncode : (Instr.init 0 []).Encodable ∧ (Instr.fadd 9 [1]).Encodable ∧
    (Instr.round 6 (List.replicate 96 0)).Encodable ∧ (Instr.extract 0 0xFFFF).Encodable := by decide

theorem witness_EncodeOfDecode : decode [0x21, 0, 1, 0, 0x77, 0x22] = .command (.inject 0 [0x77]) [0x22] := by decide

theorem witness_StreamDecodesRecordByRecord :
    ∀ i ∈ [Instr.init 0 [], .inject 0 [1, 2], .flip 0 [], .extract 0 5], i.Encodable := by decide

theorem witness_StepRunsDecodedCommand :
    decode (small .absorbing 32 [0x22, 0, 0, 0, 0x20]).cmd = .command (.flip 0 []) [0x20] := by decide

/-- EXTRACT, which has no payload, and an unassigned opcode, which has one. -/
theorem witness_StepConsumesOneRecord :
    (∃ t, step (small .uninit 0 [0x23, 0, 4, 0, 0x20]) = .next t) ∧
    (∃ t, step (small .uninit 0 [0xFF, 0, 1, 0, 0xAA]) = .next t) := ⟨⟨_, rfl⟩, ⟨_, rfl⟩⟩

/-- The neighbours `0x00` and `0x24` of the assigned opcodes, without and with a payload. -/
theorem witness_UnassignedOpcodeFaults :
    ((0x00 : Byte) ∉ ([0x01, 0x02, 0x03, 0x04, 0x10, 0x11, 0x12, 0x13, 0x14, 0x15, 0x16, 0x20, 0x21, 0x22, 0x23] : List Byte) ∧
      ([] : List Byte).length = (0x00 : Byte).toNat + 256 * (0x00 : Byte).toNat ∧
      (small .uninit 0 [0, 0, 0, 0, 7]).cmd = 0x00 :: 0x00 :: 0x00 :: 0x00 :: [] ++ [7]) ∧
    ((0x24 : Byte) ∉ ([0x01, 0x02, 0x03, 0x04, 0x10, 0x11, 0x12, 0x13, 0x14, 0x15, 0x16, 0x20, 0x21, 0x22, 0x23] : List Byte) ∧
      ([5, 6] : List Byte).length = (0x02 : Byte).toNat + 256 * (0x00 : Byte).toNat ∧
      (small .uninit 0 [0x24, 0, 2, 0, 5, 6]).cmd = 0x24 :: 0x00 :: 0x02 :: 0x00 :: [5, 6] ++ []) := by decide

/-- No byte; three bytes; a payload one byte short. -/
theorem witness_PartialRecordIsRefused :
    (small .uninit 0 []).cmd = [] ∧
    (0 < (small .uninit 0 [0x20, 0, 0]).cmd.length ∧ (small .uninit 0 [0x20, 0, 0]).cmd.length < 4) ∧
    ((small .uninit 0 [0x21, 0, 2, 0, 1]).cmd = 0x21 :: 0x00 :: 0x02 :: 0x00 :: [1] ∧ (0x21 : Byte) ≠ 0x23 ∧
      ([1] : List Byte).length < (0x02 : Byte).toNat + 256 * (0x00 : Byte).toNat) := by decide

/-- One command for each fault; the round index 7 and the length 15 are the first not allowed. -/
theorem witness_FaultsByCommand :
    faultOf (.ark2 7 []) .uninit = some .illegalOperand ∧
    faultOf (.fadd 0 (List.replicate 15 0)) .uninit = some .badLength ∧
    faultOf (.inject 0 []) .squeezing = some .illegalState ∧ faultOf (.flip 0 []) .uninit = some .illegalState ∧
    faultOf (.extract 0 1) .absorbing = some .illegalState := by decide

/-- Every one of the fifteen commands, with the cursor at its bound. -/
theorem witness_EveryLegalCommandCompletes :
    (faultOf (.fadd 0 (List.replicate 16 0)) .uninit = none ∧ faultOf (.fsub 0 (List.replicate 16 0)) .uninit = none ∧
      faultOf (.fmul 0 (List.replicate 16 0)) .uninit = none ∧ faultOf (.fred 0 (List.replicate 16 0)) .uninit = none) ∧
    (faultOf (.mds 0 (List.replicate 96 0)) .uninit = none ∧ faultOf (.ark1 6 (List.replicate 96 0)) .uninit = none ∧
      faultOf (.ark2 0 (List.replicate 96 0)) .uninit = none ∧ faultOf (.sbox 0 (List.replicate 96 0)) .uninit = none ∧
      faultOf (.isbox 0 (List.replicate 96 0)) .uninit = none ∧
      faultOf (.round 6 (List.replicate 96 0)) .uninit = none ∧
      faultOf (.perm 0 (List.replicate 96 0)) .uninit = none) ∧
    (faultOf (.init 0 []) .squeezing = none ∧ faultOf (.inject 0 [1]) .absorbing = none ∧
      faultOf (.flip 0 []) .absorbing = none ∧ faultOf (.extract 0 1) .squeezing = none) ∧
    (small .squeezing 96 []).ctx.dptr.toNat ≤ 96 := by decide

theorem witness_FaultChangesNoState :
    ∃ t, step (small .uninit 0 [0x22, 0, 0, 0]) = .next t ∧
      t.rsp = (small .uninit 0 [0x22, 0, 0, 0]).rsp ++ [⟨.fault .illegalState, []⟩] ∧
      (⟨.fault .illegalState, []⟩ : Response).status ≠ .ok := ⟨_, rfl, rfl, by decide⟩

theorem witness_OneResponsePerCommand : ∃ t, step (small .absorbing 95 [0x22, 0, 0, 0]) = .next t := ⟨_, rfl⟩

theorem witness_StepKeepsResponsesOk :
    ResponsesOk (small .absorbing 95 [0x22, 0, 0, 0]) ∧ ∃ t, step (small .absorbing 95 [0x22, 0, 0, 0]) = .next t :=
  ⟨fun r h => absurd h (by simp [small]), _, rfl⟩

/-- An empty fault and a response of the longest length. -/
theorem witness_ResponseHeaderLayout :
    ResponseOk ⟨.fault .badLength, []⟩ ∧ ResponseOk ⟨.ok, List.replicate 65535 0⟩ :=
  ⟨⟨by decide, fun _ => rfl⟩, ⟨by simp only [List.length_replicate]; omega, fun h => absurd rfl h⟩⟩

/-- The last write that fits and the first that does not. -/
theorem witness_WriteChangesExactlyItsBytes :
    94 + ([1, 2] : List Byte).length ≤ 96 ∧ 96 < 95 + ([1, 2] : List Byte).length ∧
    96 + ([] : List Byte).length ≤ 96 := by decide

theorem witness_FaddResult : (scalarPayload 0xFFFFFFFFFFFFFFFF 1).length = 16 := by decide
theorem witness_FsubResult : (scalarPayload 0 1).length = 16 := by decide
theorem witness_FmulResult : (scalarPayload 0 0xFFFFFFFF00000001).length = 16 := by decide
theorem witness_FredResult : (scalarPayload 5 1).length = 16 := by decide

theorem witness_CanonicalAlgorithms : Canonical 0 ∧ Canonical 0xFFFFFFFF00000000 := by decide

theorem witness_MdsResult : (bufOf zeros).length = 96 := by decide
theorem witness_Ark1Result : (bufOf zeros).length = 96 := by decide
theorem witness_Ark2Result : (bufOf zeros).length = 96 := by decide
theorem witness_SboxResult : (bufOf zeros).length = 96 := by decide
theorem witness_IsboxResult : (bufOf zeros).length = 96 := by decide
theorem witness_RoundResult : (bufOf zeros).length = 96 := by decide
theorem witness_PermResult : (bufOf zeros).length = 96 := by decide

/-- `CFG_I`, whose matrix is its own inverse. -/
theorem witness_PermuteInjectiveIfMdsInvertible :
    (∀ i j : Fin 12, (∑ k : Fin 12, (cfgI.mds[i][k]).val * (cfgI.mds[k][j]).val) % modulus = if i = j then 1 else 0) ∧
    AllCanonical zeros ∧ permute cfgI zeros = permute cfgI zeros := by
  refine ⟨?_, by decide, rfl⟩
  decide +kernel

theorem witness_StatelessCommands : Stateless (.fadd 0 []) ∧ Stateless (.perm 3 [1]) := ⟨trivial, trivial⟩

/-- The three clauses: well-formed, a wrong `ARG`, a wrong `LEN`. -/
theorem witness_InitResult : ((0 : Byte) = 0 ∧ ([] : List Byte) = []) ∧ (1 : Byte) ≠ 0 ∧
    ((0 : Byte) = 0 ∧ ([0] : List Byte) ≠ []) := by decide

/-- The four clauses. -/
theorem witness_FlipResult :
    ((0 : Byte) = 0 ∧ ([] : List Byte) = [] ∧ (small .absorbing 32 []).ctx.phase = .absorbing) ∧ (0xFF : Byte) ≠ 0 ∧
    ((0 : Byte) = 0 ∧ ([0] : List Byte) ≠ []) ∧
    ((0 : Byte) = 0 ∧ ([] : List Byte) = [] ∧ (small .squeezing 96 []).ctx.phase ≠ .absorbing) := by decide

/-- No bytes at offset 95, and the most bytes that leave room from offset 32. -/
theorem witness_InjectWithinWindow :
    ((small .absorbing 95 []).ctx.phase = .absorbing ∧
      (small .absorbing 95 []).ctx.dptr.toNat + ([] : List Byte).length < 96) ∧
    (small .absorbing 32 []).ctx.dptr.toNat + (List.replicate 63 0 : List Byte).length < 96 := by decide

theorem witness_InjectFillsWindow :
    ((small .absorbing 95 []).ctx.phase = .absorbing ∧ ([7] : List Byte) ≠ [] ∧
      (small .absorbing 95 []).ctx.dptr.toNat + ([7] : List Byte).length = 96) ∧
    (small .absorbing 32 []).ctx.dptr.toNat + (List.replicate 64 0 : List Byte).length = 96 := by decide

theorem witness_InjectCursor :
    ((small .absorbing 32 []).ctx.phase = .absorbing ∧ 32 ≤ (small .absorbing 32 []).ctx.dptr.toNat ∧
      (small .absorbing 32 []).ctx.dptr.toNat ≤ 95) ∧
    (32 ≤ (small .absorbing 95 []).ctx.dptr.toNat ∧ (small .absorbing 95 []).ctx.dptr.toNat ≤ 95) := by decide

theorem witness_InjectComposes : (small .absorbing 95 []).ctx.phase = .absorbing ∧
    (small .absorbing 95 []).ctx.dptr.toNat ≤ 96 := by decide

/-- The whole window from 32, and no bytes at 96. -/
theorem witness_ExtractWithinWindow :
    ((small .squeezing 32 []).ctx.phase = .squeezing ∧
      (small .squeezing 32 []).ctx.dptr.toNat + (64 : BitVec 16).toNat ≤ 96) ∧
    (small .squeezing 96 []).ctx.dptr.toNat + (0 : BitVec 16).toNat ≤ 96 := by decide

theorem witness_ExtractPermutesFirst : (small .squeezing 96 []).ctx.phase = .squeezing ∧
    (small .squeezing 96 []).ctx.dptr = 96 ∧ 0 < (64 : BitVec 16).toNat ∧ (64 : BitVec 16).toNat ≤ 64 := by decide

theorem witness_ExtractStreams : (small .squeezing 96 []).ctx.phase = .squeezing ∧
    (small .squeezing 96 []).ctx.dptr.toNat ≤ 96 ∧
    (65535 : BitVec 16).toNat = (65 : BitVec 16).toNat + (65470 : BitVec 16).toNat := by decide

theorem witness_ExtractCursor : (small .squeezing 32 []).ctx.phase = .squeezing ∧
    32 ≤ (small .squeezing 32 []).ctx.dptr.toNat ∧ (small .squeezing 32 []).ctx.dptr.toNat ≤ 96 ∧
    0 < (1 : BitVec 16).toNat := by decide

theorem witness_ExtractIsTheStream : (small .squeezing 96 []).ctx.phase = .squeezing ∧
    (small .squeezing 96 []).ctx.dptr = 96 := by decide

theorem witness_ShortZeroMessagesCollide : 63 ≤ 63 := by decide

theorem witness_ResidueWordsCollide : ([] : List Byte).length % 8 = 0 ∧
    (List.replicate 64 1 : List Byte).length % 8 = 0 := by decide

theorem witness_ResetState : (small .uninit 127 []).ctx.phase = .uninit := by decide

/-- The cursor at its upper bound in both phases. -/
theorem witness_StepKeepsCursor :
    CursorOk (small .absorbing 95 [0x22, 0, 0, 0]).ctx ∧ CursorOk (small .squeezing 96 [0x22, 0, 0, 0]).ctx ∧
    (∃ t, step (small .absorbing 95 [0x22, 0, 0, 0]) = .next t) ∧
    (∃ t, step (small .squeezing 96 [0x22, 0, 0, 0]) = .next t) :=
  ⟨⟨by decide, by decide⟩, ⟨by decide, by decide⟩, ⟨_, rfl⟩, ⟨_, rfl⟩⟩

theorem witness_StepKeepsCanonicalWords :
    CursorOk (small .squeezing 32 [0x23, 0, 1, 0]).ctx ∧ CapacityCanonical (small .squeezing 32 [0x23, 0, 1, 0]).ctx ∧
    SqueezedCanonical (small .squeezing 32 [0x23, 0, 1, 0]).ctx ∧
    ∃ t, step (small .squeezing 32 [0x23, 0, 1, 0]) = .next t :=
  ⟨⟨by decide, by decide⟩, by unfold CapacityCanonical; decide, by unfold SqueezedCanonical; decide, _, rfl⟩

theorem witness_NoStepFaultsTheMachine : CursorOk (small .uninit 127 []).ctx := ⟨by decide, by decide⟩

/-- A command that changes the words and the cursor, and one that changes the phase. -/
theorem witness_OnlySpongeCommandsChangeContext :
    (∃ t, exec (.inject 0 [1]) (small .absorbing 32 []) = .next t ∧ t.ctx.words ≠ (small .absorbing 32 []).ctx.words ∧
      t.ctx.dptr ≠ (small .absorbing 32 []).ctx.dptr) ∧
    (∃ t, exec (.flip 0 []) (small .absorbing 32 []) = .next t) := by
  refine ⟨⟨_, rfl, ?_, ?_⟩, ⟨_, rfl⟩⟩ <;> decide

theorem witness_AssemblerCoversWellFormed : (assemble (.ark1 6 zeros)).Encodable ∧
    (assemble (.inject [1, 2, 3])).Encodable ∧ (Instr.round 6 (List.replicate 96 0)).WellFormed := by decide

end Sys2Proof.Tests
end

section
/-! Proofs about the state: what one command and one step can do to the block, the invariants of the context along
INJECT's and EXTRACT's loops, and the statements about reset and about every step (`10_state.md`). -/

namespace Sys2Proof.Machine

open Sys2Proof.Safety

/-! ### What a command can do -/

/-- What a command that goes on does: from the context before it, the response it emits and the context it leaves. -/
inductive Effect : Instr → Context → Response → Context → Prop where
  /-- A fault leaves the context alone (`60_exceptions.md` R105). -/
  | fault {i : Instr} {c : Context} (code : FaultCode) : Effect i c ⟨.fault code, []⟩ c
  /-- A stateless command answers its result and leaves the context alone (`30_encoding.md` R49, R56). -/
  | stateless {i : Instr} {c : Context} {data : List Byte} :
      Stateless i → data.length = responseLength i → Effect i c ⟨.ok, data⟩ c
  /-- INIT makes the fresh sponge in every phase (`42_sponge.md` R88). -/
  | init {arg : Byte} {payload : List Byte} {c : Context} : Effect (.init arg payload) c ⟨.ok, []⟩ freshContext
  /-- INJECT runs its loop in `ABSORBING` (`42_sponge.md` R89). -/
  | inject {arg : Byte} {data : List Byte} {c c' : Context} :
      c.phase = .absorbing → absorb Config.tables data c = some c' → Effect (.inject arg data) c ⟨.ok, []⟩ c'
  /-- FLIP turns `ABSORBING` into `SQUEEZING` (`42_sponge.md` R91). -/
  | flip {arg : Byte} {payload : List Byte} {c : Context} :
      c.phase = .absorbing → Effect (.flip arg payload) c ⟨.ok, []⟩ (flipContext c)
  /-- EXTRACT runs its loop in `SQUEEZING` (`42_sponge.md` R92). -/
  | extract {arg : Byte} {len : BitVec 16} {out : List Byte} {c c' : Context} :
      c.phase = .squeezing → squeeze Config.tables len.toNat c = some (out, c') →
      Effect (.extract arg len) c ⟨.ok, out⟩ c'

/-- `t` is `s` after an effect of the command: one response appended, the context replaced, nothing else changed. -/
def Answers (i : Instr) (s t : State) : Prop := ∃ r c, Effect i s.ctx r c ∧ t = emit r (setCtx c s)

section Answers

variable {i : Instr} {s t : State} {arg : Byte} {payload : List Byte}

theorem raise_answers {code : FaultCode} (h : raise code s = .next t) : Answers i s t :=
  ⟨_, _, .fault code, raise_eq_next.mp h⟩

theorem respond_answers {data : List Byte} (hi : Stateless i) (hlen : data.length = responseLength i)
    (h : respond data s = .next t) : Answers i s t :=
  ⟨_, _, .stateless hi hlen, respond_eq_next.mp h⟩

theorem respondWord_answers {w : Word} (hi : Stateless i) (hlen : responseLength i = 8)
    (h : respondWord w s = .next t) : Answers i s t :=
  respond_answers hi (hlen ▸ le64inv_length w) h

theorem respondLanes_answers {y : Lanes} (hi : Stateless i) (hlen : responseLength i = 96)
    (h : respondLanes y s = .next t) : Answers i s t :=
  respond_answers hi (hlen ▸ bufOf_length y) h

/-! Each operand form hands its operands on or takes a fault, so it answers when what it hands them to answers. -/

theorem withZeroArg_answers {k : Result} (hk : k = .next t → Answers i s t)
    (h : withZeroArg arg s k = .next t) : Answers i s t := by
  obtain ⟨-, e⟩ | ⟨-, e⟩ := withZeroArg_cases arg s k
  · exact hk (e ▸ h)
  · exact raise_answers (e ▸ h)

theorem withLength_answers {n : Nat} {k : Result} (hk : k = .next t → Answers i s t)
    (h : withLength n payload s k = .next t) : Answers i s t := by
  obtain ⟨-, e⟩ | ⟨-, e⟩ := withLength_cases n payload s k
  · exact hk (e ▸ h)
  · exact raise_answers (e ▸ h)

theorem withPhase_answers {need : Phase} {k : Result} (hk : s.ctx.phase = need → k = .next t → Answers i s t)
    (h : withPhase need s k = .next t) : Answers i s t := by
  obtain ⟨hph, e⟩ | ⟨-, e⟩ := withPhase_cases need s k
  · exact hk hph (e ▸ h)
  · exact raise_answers (e ▸ h)

theorem withNone_answers {k : Result} (hk : k = .next t → Answers i s t)
    (h : withNone arg payload s k = .next t) : Answers i s t :=
  withZeroArg_answers (withLength_answers hk) h

theorem withScalars_answers {k : Word → Word → Result} (hk : ∀ a b, k a b = .next t → Answers i s t)
    (h : withScalars arg payload s k = .next t) : Answers i s t :=
  withZeroArg_answers (withLength_answers (hk _ _)) h

theorem withVector_answers {k : Lanes → Result} (hk : ∀ x, k x = .next t → Answers i s t)
    (h : withVector arg payload s k = .next t) : Answers i s t :=
  withZeroArg_answers (withLength_answers (hk _)) h

theorem withVectorRound_answers {k : Fin 7 → Lanes → Result} (hk : ∀ r x, k r x = .next t → Answers i s t)
    (h : withVectorRound arg payload s k = .next t) : Answers i s t := by
  obtain ⟨r, -, -, e⟩ | ⟨-, e⟩ | ⟨-, -, e⟩ := withVectorRound_cases arg payload s k
  · exact hk r _ (e ▸ h)
  · exact raise_answers (e ▸ h)
  · exact raise_answers (e ▸ h)

theorem execInit_answers (h : execInit arg payload s = .next t) : Answers (.init arg payload) s t :=
  withNone_answers (fun e => ⟨_, _, .init, respond_eq_next.mp e⟩) h

theorem execFlip_answers (h : execFlip arg payload s = .next t) : Answers (.flip arg payload) s t :=
  withNone_answers (withPhase_answers fun hph e => ⟨_, _, .flip hph, respond_eq_next.mp e⟩) h

theorem execInject_answers (h : execInject arg payload s = .next t) : Answers (.inject arg payload) s t := by
  refine withZeroArg_answers (withPhase_answers fun hph e => ?_) h
  obtain ⟨c, hc, e'⟩ | ⟨-, e'⟩ := finishAbsorb_cases (absorb Config.tables payload s.ctx) s
  · exact ⟨_, c, .inject hph hc, by simpa using (e'.symm.trans e).symm⟩
  · cases e'.symm.trans e

theorem execExtract_answers {len : BitVec 16} (h : execExtract arg len s = .next t) :
    Answers (.extract arg len) s t := by
  refine withZeroArg_answers (withPhase_answers fun hph e => ?_) h
  obtain ⟨out, c, hc, e'⟩ | ⟨-, e'⟩ := finishSqueeze_cases (squeeze Config.tables len.toNat s.ctx) s
  · exact ⟨_, c, .extract hph hc, by simpa using (e'.symm.trans e).symm⟩
  · cases e'.symm.trans e

end Answers

/-- Every command that goes on has one of the effects. -/
theorem exec_answers {i : Instr} {s t : State} (h : exec i s = .next t) : Answers i s t := by
  cases i with
  | fadd => exact withScalars_answers (fun _ _ => respondWord_answers trivial rfl) h
  | fsub => exact withScalars_answers (fun _ _ => respondWord_answers trivial rfl) h
  | fmul => exact withScalars_answers (fun _ _ => respondWord_answers trivial rfl) h
  | fred => exact withScalars_answers (fun _ _ => respondWord_answers trivial rfl) h
  | mds => exact withVector_answers (fun _ => respondLanes_answers trivial rfl) h
  | ark1 => exact withVectorRound_answers (fun _ _ => respondLanes_answers trivial rfl) h
  | ark2 => exact withVectorRound_answers (fun _ _ => respondLanes_answers trivial rfl) h
  | sbox => exact withVector_answers (fun _ => respondLanes_answers trivial rfl) h
  | isbox => exact withVector_answers (fun _ => respondLanes_answers trivial rfl) h
  | round => exact withVectorRound_answers (fun _ _ => respondLanes_answers trivial rfl) h
  | perm => exact withVector_answers (fun _ => respondLanes_answers trivial rfl) h
  | init => exact execInit_answers h
  | inject => exact execInject_answers h
  | flip => exact execFlip_answers h
  | extract => exact execExtract_answers h

/-- Every step that goes on takes a whole record and has an effect of its command, or the fault of an unassigned
opcode (`30_encoding.md` R51, R53). -/
theorem step_cases {s t : State} (h : step s = .next t) :
    (∃ i rest, fetch s = .command i rest ∧ Answers i (advance rest s) t) ∨
    (∃ hd rest, fetch s = .illegalOpcode hd rest ∧ t = emit ⟨.fault .illegalOpcode, []⟩ (advance rest s)) := by
  unfold step at h
  cases hf : fetch s with
  | command i rest => rw [hf] at h; exact .inl ⟨i, rest, rfl, exec_answers h⟩
  | illegalOpcode hd rest => rw [hf] at h; exact .inr ⟨hd, rest, rfl, raise_eq_next.mp h⟩
  | partialRecord => rw [hf] at h; cases h
  | noRecord => rw [hf] at h; cases h

/-- What every effect keeps of the context, every step keeps. -/
theorem step_keeps {P : Context → Prop} (hP : ∀ {i c r c'}, Effect i c r c' → P c → P c') {s t : State}
    (h : step s = .next t) (hs : P s.ctx) : P t.ctx := by
  obtain ⟨i, rest, -, r, c, he, rfl⟩ | ⟨hd, rest, -, rfl⟩ := step_cases h
  · exact hP he hs
  · exact hs

/-! ### The loops of INJECT and EXTRACT, one chunk at a time -/

/-- The context after one iteration of INJECT's loop, with `n` bytes left and `words` the written words
(`42_sponge.md` R89). -/
def absorbChunk (t : Tables) (n : Nat) (c : Context) (words : Lanes) : Context :=
  if c.dptr.toNat + chunk n c = rateEnd then permuteCtx t { c with words := words }
  else moveCursor (chunk n c) { c with words := words }

theorem absorbLoop_cons (t : Tables) (fuel : Nat) (b : Byte) (bs : List Byte) (c : Context) :
    absorbLoop t (fuel + 1) (b :: bs) c =
      (memWrite c.words c.dptr.toNat ((b :: bs).take (chunk (bs.length + 1) c))).bind fun words =>
        absorbLoop t fuel ((b :: bs).drop (chunk (bs.length + 1) c)) (absorbChunk t (bs.length + 1) c words) := rfl

/-- What every iteration of INJECT's loop keeps, the loop keeps. -/
theorem absorbLoop_keeps {t : Tables} {P : Context → Prop}
    (hP : ∀ {n c v words}, memWrite c.words c.dptr.toNat v = some words → P c → P (absorbChunk t n c words))
    {fuel : Nat} {data : List Byte} {c c' : Context} (h : absorbLoop t fuel data c = some c') (hc : P c) : P c' := by
  induction fuel generalizing data c with
  | zero =>
    cases data with
    | nil => cases h; exact hc
    | cons b bs => cases h
  | succ fuel ih =>
    cases data with
    | nil => cases h; exact hc
    | cons b bs =>
      rw [absorbLoop_cons, Option.bind_eq_some_iff] at h
      obtain ⟨words, hw, hrest⟩ := h
      exact ih hrest (hP hw hc)

/-- The context after one iteration of EXTRACT's loop, with `n` bytes wanted (`42_sponge.md` R92). -/
def squeezeChunk (t : Tables) (n : Nat) (c : Context) : Context :=
  moveCursor (chunk n (refill t c)) (refill t c)

theorem squeezeLoop_succ (t : Tables) (fuel n : Nat) (c : Context) :
    squeezeLoop t (fuel + 1) (n + 1) c =
      (memRead (refill t c).words (refill t c).dptr.toNat (chunk (n + 1) (refill t c))).bind fun bytes =>
        (squeezeLoop t fuel (n + 1 - chunk (n + 1) (refill t c)) (squeezeChunk t (n + 1) c)).map
          fun r => (bytes ++ r.1, r.2) := rfl

/-- What every iteration of EXTRACT's loop keeps, the loop keeps. -/
theorem squeezeLoop_keeps {t : Tables} {P : Context → Prop} (hP : ∀ {n c}, P c → P (squeezeChunk t n c))
    {fuel n : Nat} {c c' : Context} {out : List Byte} (h : squeezeLoop t fuel n c = some (out, c')) (hc : P c) :
    P c' := by
  induction fuel generalizing n c out with
  | zero =>
    cases n with
    | zero => cases h; exact hc
    | succ n => cases h
  | succ fuel ih =>
    cases n with
    | zero => cases h; exact hc
    | succ n =>
      rw [squeezeLoop_succ, Option.bind_eq_some_iff] at h
      obtain ⟨bytes, -, hrest⟩ := h
      obtain ⟨⟨out', c''⟩, hloop, e⟩ := Option.map_eq_some_iff.mp hrest
      cases e
      exact ih hloop (hP hc)

@[simp] theorem absorbChunk_phase (t : Tables) (n : Nat) (c : Context) (words : Lanes) :
    (absorbChunk t n c words).phase = c.phase := by
  unfold absorbChunk
  split <;> rfl

@[simp] theorem refill_phase (t : Tables) (c : Context) : (refill t c).phase = c.phase := by
  unfold refill
  split <;> rfl

@[simp] theorem squeezeChunk_phase (t : Tables) (n : Nat) (c : Context) : (squeezeChunk t n c).phase = c.phase := by
  simp [squeezeChunk]

@[simp] theorem squeezeChunk_words (t : Tables) (n : Nat) (c : Context) :
    (squeezeChunk t n c).words = (refill t c).words := rfl

/-- An iteration of INJECT's loop leaves the written words, or permutes them. -/
theorem absorbChunk_words (t : Tables) (n : Nat) (c : Context) (words : Lanes) :
    (absorbChunk t n c words).words = permute t words ∨ (absorbChunk t n c words).words = words := by
  unfold absorbChunk
  split
  · exact .inl rfl
  · exact .inr rfl

/-! ### The cursor's bounds -/

theorem cursorOk_iff_of_absorbing {c : Context} (h : c.phase = .absorbing) :
    CursorOk c ↔ 32 ≤ c.dptr.toNat ∧ c.dptr.toNat ≤ 95 := by
  simp [CursorOk, h]

theorem cursorOk_iff_of_squeezing {c : Context} (h : c.phase = .squeezing) :
    CursorOk c ↔ 32 ≤ c.dptr.toNat ∧ c.dptr.toNat ≤ 96 := by
  simp [CursorOk, h]

theorem cursorOk_freshContext : CursorOk freshContext :=
  (cursorOk_iff_of_absorbing rfl).mpr (by decide)

theorem cursorOk_flipContext (c : Context) : CursorOk (flipContext c) :=
  (cursorOk_iff_of_squeezing rfl).mpr (by simp)

/-- The cursor stays below 96 because the iteration that reaches 96 permutes and goes back to 32. -/
theorem absorbChunk_cursorOk {t : Tables} {n : Nat} {c : Context} {words : Lanes} (hph : c.phase = .absorbing)
    (hc : CursorOk c) : CursorOk (absorbChunk t n c words) := by
  rw [cursorOk_iff_of_absorbing hph] at hc
  rw [cursorOk_iff_of_absorbing (by simp [hph])]
  have hfit : c.dptr.toNat + chunk n c ≤ 96 := chunk_fits (by omega)
  unfold absorbChunk
  split
  · simp
  · rename_i hne
    rw [moveCursor_dptr (c := { c with words := words }) hfit]
    simp only [rateEnd] at hne ⊢
    omega

theorem refill_dptr_bounds {t : Tables} {c : Context} (h : 32 ≤ c.dptr.toNat ∧ c.dptr.toNat ≤ 96) :
    32 ≤ (refill t c).dptr.toNat ∧ (refill t c).dptr.toNat < 96 := by
  unfold refill
  split
  · simp
  · rename_i hne
    simp only [rateEnd] at hne
    omega

theorem squeezeChunk_cursorOk {t : Tables} {n : Nat} {c : Context} (hph : c.phase = .squeezing)
    (hc : CursorOk c) : CursorOk (squeezeChunk t n c) := by
  rw [cursorOk_iff_of_squeezing hph] at hc
  rw [cursorOk_iff_of_squeezing (by simp [hph])]
  have hbounds := refill_dptr_bounds (t := t) hc
  have hfit : (refill t c).dptr.toNat + chunk n (refill t c) ≤ 96 := chunk_fits (by omega)
  rw [squeezeChunk, moveCursor_dptr hfit]
  omega

theorem effect_keeps_cursorOk {i : Instr} {c c' : Context} {r : Response} (h : Effect i c r c') (hc : CursorOk c) :
    CursorOk c' := by
  cases h with
  | fault | stateless => exact hc
  | init => exact cursorOk_freshContext
  | flip => exact cursorOk_flipContext c
  | inject hph hloop =>
    exact (absorbLoop_keeps (P := fun c => c.phase = .absorbing ∧ CursorOk c)
      (fun _ ⟨hph, hc⟩ => ⟨by simp [hph], absorbChunk_cursorOk hph hc⟩) hloop ⟨hph, hc⟩).2
  | extract hph hloop =>
    exact (squeezeLoop_keeps (P := fun c => c.phase = .squeezing ∧ CursorOk c)
      (fun ⟨hph, hc⟩ => ⟨by simp [hph], squeezeChunk_cursorOk hph hc⟩) hloop ⟨hph, hc⟩).2

/-! ### Canonical words -/

theorem allCanonical_isbox (x : Lanes) : AllCanonical (isbox x) := by
  intro i
  have e : (isbox x)[i] = fpow x[i] invAlpha := by simp [isbox]
  rw [e]
  exact canonical_of_toNat (fpow_toNat _ _)

theorem allCanonical_oneRound (t : Tables) (r : Fin 7) (x : Lanes) : AllCanonical (oneRound t r x) :=
  allCanonical_isbox _

/-- The last round ends in the inverse S-box, whose lanes are residues. -/
theorem allCanonical_permute (t : Tables) (x : Lanes) : AllCanonical (permute t x) :=
  allCanonical_oneRound t 6 _

/-- A word is read from the first bytes of its image only. -/
theorem wordAt_eq_of_take_eq {b b' : List Byte} {n i : Nat} (h : b.take n = b'.take n) (hi : 8 * i + 8 ≤ n) :
    wordAt b i = wordAt b' i := by
  have cut : ∀ l : List Byte, (l.drop (8 * i)).take 8 = ((l.take n).drop (8 * i)).take 8 := by
    intro l
    rw [List.drop_take, List.take_take, Nat.min_eq_left (by omega)]
  rw [wordAt, wordAt, cut b, cut b', h]

/-- A write leaves the words that lie wholly before it (`20_memory.md` R33). -/
theorem memWrite_word_before {x y : Lanes} {addr : Nat} {v : List Byte} (h : memWrite x addr v = some y)
    (i : Fin 12) (hi : 8 * i.val + 8 ≤ addr) : y[i] = x[i] := by
  obtain ⟨hle, hbuf⟩ := bufOf_memWrite h
  have htake : (bufOf y).take addr = (bufOf x).take addr := by
    rw [hbuf, List.append_assoc]
    exact List.take_left' (by simp only [List.length_take, bufOf_length]; omega)
  rw [← wordAt_bufOf y i, ← wordAt_bufOf x i, wordAt_eq_of_take_eq htake hi]

/-- The three invariants of the context together, which every step keeps (`10_state.md` R15, R19;
`42_sponge.md` R92). -/
structure ContextOk (c : Context) : Prop where
  cursor : CursorOk c
  capacity : CapacityCanonical c
  squeezed : SqueezedCanonical c

theorem contextOk_of_uninit {c : Context} (h : c.phase = .uninit) : ContextOk c := by
  constructor <;> simp [CursorOk, CapacityCanonical, SqueezedCanonical, h]

theorem contextOk_freshContext : ContextOk freshContext where
  cursor := cursorOk_freshContext
  capacity := fun _ i _ => by simp [Canonical, modulus]
  squeezed := nofun

/-- FLIP writes no word and leaves the cursor at 96, where nothing has been squeezed (`42_sponge.md` R91). -/
theorem contextOk_flipContext {c : Context} (hph : c.phase = .absorbing) (hc : ContextOk c) :
    ContextOk (flipContext c) where
  cursor := cursorOk_flipContext c
  capacity := fun _ => hc.capacity (by simp [hph])
  squeezed := fun _ h => absurd h (by simp)

/-- A write at or above offset 32 leaves the capacity words, and the permutation makes all words canonical. -/
theorem absorbChunk_capacityCanonical {t : Tables} {n : Nat} {c : Context} {v : List Byte} {words : Lanes}
    (hw : memWrite c.words c.dptr.toNat v = some words) (hlow : 32 ≤ c.dptr.toNat) (hph : c.phase ≠ .uninit)
    (hc : CapacityCanonical c) : CapacityCanonical (absorbChunk t n c words) := by
  intro _ i hi
  obtain e | e := absorbChunk_words t n c words
  · rw [e]
    exact allCanonical_permute t words i
  · rw [e, memWrite_word_before hw i (by omega)]
    exact hc hph i hi

theorem absorbChunk_contextOk {t : Tables} {n : Nat} {c : Context} {v : List Byte} {words : Lanes}
    (hw : memWrite c.words c.dptr.toNat v = some words) (hph : c.phase = .absorbing) (hc : ContextOk c) :
    ContextOk (absorbChunk t n c words) where
  cursor := absorbChunk_cursorOk hph hc.cursor
  capacity := absorbChunk_capacityCanonical hw (hc.cursor.1 hph).1 (by simp [hph]) hc.capacity
  squeezed := fun h => absurd h (by simp [hph])

/-- Every byte EXTRACT reads is a byte of a canonical word: the words are permuted at 96, and were canonical before
otherwise (`42_sponge.md` R92). -/
theorem allCanonical_refill {t : Tables} {c : Context} (hph : c.phase = .squeezing) (hc : ContextOk c) :
    AllCanonical (refill t c).words := by
  have hle := (hc.cursor.2 hph).2
  unfold refill
  split
  · exact allCanonical_permute t c.words
  · rename_i hne
    simp only [rateEnd] at hne
    exact hc.squeezed hph (by omega)

theorem squeezeChunk_contextOk {t : Tables} {n : Nat} {c : Context} (hph : c.phase = .squeezing) (hc : ContextOk c) :
    ContextOk (squeezeChunk t n c) where
  cursor := squeezeChunk_cursorOk hph hc.cursor
  capacity := fun _ i _ => allCanonical_refill hph hc i
  squeezed := fun _ _ => allCanonical_refill hph hc

theorem effect_keeps_contextOk {i : Instr} {c c' : Context} {r : Response} (h : Effect i c r c') (hc : ContextOk c) :
    ContextOk c' := by
  cases h with
  | fault | stateless => exact hc
  | init => exact contextOk_freshContext
  | flip hph => exact contextOk_flipContext hph hc
  | inject hph hloop =>
    exact (absorbLoop_keeps (P := fun c => c.phase = .absorbing ∧ ContextOk c)
      (fun hw ⟨hph, hc⟩ => ⟨by simp [hph], absorbChunk_contextOk hw hph hc⟩) hloop ⟨hph, hc⟩).2
  | extract hph hloop =>
    exact (squeezeLoop_keeps (P := fun c => c.phase = .squeezing ∧ ContextOk c)
      (fun ⟨hph, hc⟩ => ⟨by simp [hph], squeezeChunk_contextOk hph hc⟩) hloop ⟨hph, hc⟩).2

/-! ### Reset -/

@[simp] theorem reset_phase : State.reset.ctx.phase = .uninit := rfl
@[simp] theorem reset_cmd : State.reset.cmd = [] := rfl
@[simp] theorem reset_rsp : State.reset.rsp = [] := rfl
@[simp] theorem reset_index : State.reset.index = 0 := rfl

theorem withPhase_of_ne {need : Phase} {s : State} (h : s.ctx.phase ≠ need) (k : Result) :
    withPhase need s k = raise .illegalState s := if_neg h

/-! The three sponge commands that need a phase, once their header is well-formed: what is left is the phase check. -/

theorem exec_inject_zero (data : List Byte) (s : State) : exec (.inject 0 data) s =
    withPhase .absorbing s (finishAbsorb (absorb Config.tables data s.ctx) s) := rfl

theorem exec_flip_zero (s : State) : exec (.flip 0 []) s =
    withPhase .absorbing s (respond [] (setCtx (flipContext s.ctx) s)) := rfl

theorem exec_extract_zero (n : BitVec 16) (s : State) : exec (.extract 0 n) s =
    withPhase .squeezing s (finishSqueeze (squeeze Config.tables n.toNat s.ctx) s) := rfl

/-! ### The statements -/

/-- Settles O54: each effect of a command keeps the bounds, the two loops iteration by iteration. -/
theorem stepKeepsCursor : Obligations.StepKeepsCursor :=
  fun _ _ hc h => step_keeps effect_keeps_cursorOk h hc

/-- Settles O55: the cursor's bounds and the two claims about canonical words are kept together. -/
theorem stepKeepsCanonicalWords : Obligations.StepKeepsCanonicalWords := by
  intro s t hcursor hcapacity hsqueezed h
  obtain ⟨-, capacity, squeezed⟩ := step_keeps effect_keeps_contextOk h ⟨hcursor, hcapacity, hsqueezed⟩
  exact ⟨capacity, squeezed⟩

/-- Settles O52: in `UNINIT` the phase check of each of the three commands fails. -/
theorem resetState : Obligations.ResetState := by
  refine ⟨⟨reset_phase, reset_cmd, reset_rsp, reset_index⟩,
    fun _ => ⟨reset_phase, reset_cmd, reset_rsp, reset_index⟩, fun s hph data n => ⟨?_, ?_, ?_⟩⟩
  · rw [exec_inject_zero, withPhase_of_ne (by simp [hph])]; rfl
  · rw [exec_flip_zero, withPhase_of_ne (by simp [hph])]; rfl
  · rw [exec_extract_zero, withPhase_of_ne (by simp [hph])]; rfl

/-- Settles O53: the three invariants of the context say nothing in `UNINIT`, and no response has been emitted. -/
theorem resetMeetsInvariants : Obligations.ResetMeetsInvariants := by
  obtain ⟨cursor, capacity, squeezed⟩ := contextOk_of_uninit reset_phase
  exact ⟨cursor, capacity, squeezed, fun r hr => absurd hr (by simp)⟩

end Sys2Proof.Machine
end

section
/-! Proofs about the buffer: its bytes as slices of the words, and what a write does to each of them
(`20_memory.md`). -/

namespace Sys2Proof

/-- Byte `k` of a little-endian image is digit `k` to base 256 (`00_scope.md` section 5). -/
theorem leBytes_getElem? {n k : Nat} (v : Nat) (h : k < n) :
    (leBytes n v)[k]? = some (BitVec.ofNat 8 (v / 256 ^ k)) := by
  induction n generalizing k v with
  | zero => omega
  | succ n ih =>
    cases k with
    | zero => simp [leBytes]
    | succ k => rw [leBytes, List.getElem?_cons_succ, ih _ (by omega), Nat.div_div_eq_div_mul, Nat.pow_succ']

namespace Machine

/-! ### Byte slices of a word -/

/-- Byte `k` of `LE64inv(w)` is bits `8k+7 .. 8k` of `w` (`00_scope.md` section 5). -/
theorem le64inv_getElem? (w : Word) {k : Nat} (h : k < 8) :
    (le64inv w)[k]? = some (w.extractLsb' (8 * k) 8) := by
  have hpow : 256 ^ k = 2 ^ (8 * k) := by rw [Nat.pow_mul]
  rw [le64inv, leBytes_getElem? _ h, hpow, ← Nat.shiftRight_eq_div_pow]
  rfl

/-- The eight buffer bytes of word `i` are the word's little-endian image (`20_memory.md` R29). -/
theorem bufOf_slice (x : Lanes) (i : Fin 12) : ((bufOf x).drop (8 * i.val)).take 8 = le64inv x[i] := by
  have hlen : (((bufOf x).drop (8 * i.val)).take 8).length = 8 := by simp; omega
  rw [← wordAt_bufOf x i, wordAt, le64inv_le64 hlen]

/-! ### Single bytes after a write -/

/-- The written bytes stand in the written range and every other byte is the old one (`20_memory.md` R33). -/
theorem bufByte_memWrite {x y : Lanes} {addr : Nat} {v : List Byte} (h : memWrite x addr v = some y) (a : Nat) :
    bufByte y a = if addr ≤ a ∧ a < addr + v.length then v[a - addr]? else bufByte x a := by
  obtain ⟨hle, hbuf⟩ := bufOf_memWrite h
  have htake : ((bufOf x).take addr).length = addr := by simp; omega
  rw [bufByte, bufByte, hbuf, List.append_assoc]
  by_cases hlow : a < addr
  · rw [List.getElem?_append_left (by omega), List.getElem?_take_of_lt hlow, if_neg (by omega)]
  · rw [List.getElem?_append_right (by omega), htake]
    by_cases hin : a < addr + v.length
    · rw [List.getElem?_append_left (by omega), if_pos (by omega)]
    · have hback : addr + v.length + (a - addr - v.length) = a := by omega
      rw [List.getElem?_append_right (by omega), List.getElem?_drop, hback, if_neg (by omega)]

theorem memWrite_eq_none {x : Lanes} {addr : Nat} {v : List Byte} (h : 96 < addr + v.length) :
    memWrite x addr v = none := if_neg (Nat.not_le.mpr h)

/-! ### The statements -/

/-- Settles O15: byte `8i + k` is byte `k` of the slice of the buffer that is word `i`'s image. -/
theorem bufferByteIsWordSlice : Obligations.BufferByteIsWordSlice := by
  intro x i k
  calc bufByte x (8 * i.val + k.val)
      = (((bufOf x).drop (8 * i.val)).take 8)[k.val]? := by
        rw [List.getElem?_take_of_lt k.isLt, List.getElem?_drop, bufByte]
    _ = (le64inv x[i])[k.val]? := by rw [bufOf_slice]
    _ = some (x[i].extractLsb' (8 * k.val) 8) := le64inv_getElem? _ k.isLt

/-- Settles O16: a write that fits answers, and its bytes are read back one by one; one that does not is not done. -/
theorem writeChangesExactlyItsBytes : Obligations.WriteChangesExactlyItsBytes := by
  intro x addr v
  refine ⟨fun hfit => ?_, memWrite_eq_none⟩
  obtain ⟨y, hy⟩ := Option.isSome_iff_exists.mp (memWrite_isSome (x := x) hfit)
  exact ⟨y, hy, bufByte_memWrite hy⟩

end Machine

end Sys2Proof
end

section
/-! Proofs about the encoding: the header's fields, one record on the stream, the round trips between commands and
records, and a stream of records (`30_encoding.md` R42 to R53). -/

namespace Sys2Proof

/-! ### The header -/

@[simp] theorem headerOf_opc (b0 b1 b2 b3 : Byte) : (headerOf b0 b1 b2 b3).opc = b0 := rfl
@[simp] theorem headerOf_arg (b0 b1 b2 b3 : Byte) : (headerOf b0 b1 b2 b3).arg = b1 := rfl

/-- `LEN` is read low byte first (`30_encoding.md` R43). -/
@[simp] theorem headerOf_len_toNat (b0 b1 b2 b3 : Byte) :
    (headerOf b0 b1 b2 b3).len.toNat = b2.toNat + 256 * b3.toNat := by
  have h2 := b2.isLt
  have h3 := b3.isLt
  simp only [headerOf, leNat, BitVec.toNat_ofNat]
  omega

theorem payloadLen_headerOf (b0 b1 b2 b3 : Byte) :
    payloadLen (headerOf b0 b1 b2 b3) = if b0 = 0x23 then 0 else b2.toNat + 256 * b3.toNat := by
  simp [payloadLen]

theorem payloadLen_lt (h : Header) : payloadLen h < 65536 := by
  have := h.len.isLt
  unfold payloadLen
  split <;> omega

/-- Two `LEN` bytes written and read again. -/
theorem headerOf_leBytes (b0 b1 : Byte) (n : Nat) :
    headerOf b0 b1 (BitVec.ofNat 8 n) (BitVec.ofNat 8 (n / 256)) = ⟨b0, b1, BitVec.ofNat 16 n⟩ := by
  have hlen : leNat [BitVec.ofNat 8 n, BitVec.ofNat 8 (n / 256)] = n % 2 ^ 16 := leNat_leBytes 2 n
  rw [headerOf, hlen, Header.mk.injEq]
  exact ⟨rfl, rfl, BitVec.eq_of_toNat_eq (by simp)⟩

/-- Two `LEN` bytes read and written again. -/
theorem leBytes_headerOf_len (b0 b1 b2 b3 : Byte) : leBytes 2 (headerOf b0 b1 b2 b3).len.toNat = [b2, b3] := by
  have hlen : (headerOf b0 b1 b2 b3).len.toNat = leNat [b2, b3] := by simp [leNat]
  rw [hlen]
  exact leBytes_leNat [b2, b3]

theorem len_lt_of_encodable {i : Instr} (h : i.Encodable) : i.len < 65536 := by
  cases i with
  | extract arg len => exact len.isLt
  | _ => exact h

/-- `plen` of a command's own header is the length of its payload (`30_encoding.md` R45). -/
theorem payloadLen_of_encodable {i : Instr} (h : i.Encodable) :
    payloadLen ⟨opcodeOf i, i.arg, BitVec.ofNat 16 i.len⟩ = i.payload.length := by
  cases i with
  | extract => rfl
  | _ => exact Nat.mod_eq_of_lt h

/-- The fifteen assigned opcodes (`30_encoding.md` R48). -/
theorem opcodeOf_mem_assigned (i : Instr) : opcodeOf i ∈
    ([0x01, 0x02, 0x03, 0x04, 0x10, 0x11, 0x12, 0x13, 0x14, 0x15, 0x16, 0x20, 0x21, 0x22, 0x23] : List Byte) := by
  cases i <;> simp [opcodeOf]

/-- A whole record that is looked up as a command has that command's payload and `LEN`. -/
theorem payload_of_commandOf {h : Header} {payload : List Byte} {i : Instr} (e : commandOf h payload = some i)
    (hlen : payload.length = payloadLen h) : i.payload = payload ∧ i.len = h.len.toNat := by
  unfold commandOf at e
  split at e <;> cases e <;> simp_all [payloadLen, Instr.payload, Instr.len]

/-! ### One record -/

/-- The bytes a decoder answer leaves, where it has taken a whole record. -/
def Decoded.rest? : Decoded → Option (List Byte)
  | .command _ rest => some rest
  | .illegalOpcode _ rest => some rest
  | .partialRecord => none
  | .noRecord => none

/-- A whole record is decoded by the lookup of its opcode (`30_encoding.md` R53). -/
theorem decode_record {b0 b1 b2 b3 : Byte} {payload : List Byte} (rest : List Byte)
    (h : payload.length = payloadLen (headerOf b0 b1 b2 b3)) :
    decode (b0 :: b1 :: b2 :: b3 :: payload ++ rest) =
      (commandOf (headerOf b0 b1 b2 b3) payload).elim (.illegalOpcode (headerOf b0 b1 b2 b3) rest)
        (.command · rest) := by
  simp only [List.cons_append, decode, ← h, List.length_append, List.take_left, List.drop_left]
  rw [if_neg (by omega)]
  cases commandOf (headerOf b0 b1 b2 b3) payload <;> rfl

/-- What the decoder takes off the stream is one whole record. -/
theorem exists_record_of_rest {bs rest : List Byte} (h : (decode bs).rest? = some rest) :
    ∃ b0 b1 b2 b3 payload, bs = b0 :: b1 :: b2 :: b3 :: payload ++ rest ∧
      payload.length = payloadLen (headerOf b0 b1 b2 b3) := by
  obtain ⟨-, e⟩ | ⟨b0, b1, b2, b3, tail, rfl, hle, whole⟩ | e := decode_cases bs
  · rw [e] at h; cases h
  · have hrest : rest = tail.drop (payloadLen (headerOf b0 b1 b2 b3)) := by
      obtain ⟨i, -, e⟩ | ⟨-, e⟩ := whole <;> (rw [e] at h; cases h; rfl)
    exact ⟨b0, b1, b2, b3, _, by simp [hrest], List.length_take_of_le hle⟩
  · rw [e] at h; cases h

theorem decode_short {bs : List Byte} (h0 : 0 < bs.length) (h4 : bs.length < 4) : decode bs = .partialRecord := by
  match bs with
  | [_] | [_, _] | [_, _, _] => rfl

theorem decode_short_payload {b0 b1 b2 b3 : Byte} {tail : List Byte}
    (h : tail.length < payloadLen (headerOf b0 b1 b2 b3)) : decode (b0 :: b1 :: b2 :: b3 :: tail) = .partialRecord :=
  if_pos h

/-! ### The round trips -/

/-- A command's record, with the header's bytes in the order of the stream (`30_encoding.md` R43). -/
theorem encode_eq_cons (i : Instr) : encode i =
    opcodeOf i :: i.arg :: BitVec.ofNat 8 i.len :: BitVec.ofNat 8 (i.len / 256) :: i.payload := rfl

/-- A record that is looked up as a command is the encoding of that command. -/
theorem encode_of_commandOf {b0 b1 b2 b3 : Byte} {payload : List Byte} {i : Instr}
    (hlen : payload.length = payloadLen (headerOf b0 b1 b2 b3))
    (e : commandOf (headerOf b0 b1 b2 b3) payload = some i) : encode i = b0 :: b1 :: b2 :: b3 :: payload := by
  obtain ⟨hopc, harg⟩ := opcode_of_commandOf e
  obtain ⟨hpayload, hlen'⟩ := payload_of_commandOf e hlen
  rw [encode, hopc, harg, hpayload, hlen', leBytes_headerOf_len, headerOf_opc, headerOf_arg]
  rfl

/-- Settles O1: the header a command is encoded with announces its payload, and the lookup gives the command back. -/
theorem decodeOfEncode : Obligations.DecodeOfEncode := by
  intro i rest h
  have hheader := headerOf_leBytes (opcodeOf i) i.arg i.len
  rw [encode_eq_cons, decode_record rest (hheader ▸ (payloadLen_of_encodable h).symm), hheader,
    (Laws.Shape.of_len i len_lt_of_encodable).2 h]
  rfl

/-- Settles O2: the bytes decoded are a whole record, and the lookup that read it found the command it encodes. -/
theorem encodeOfDecode : Obligations.EncodeOfDecode := by
  intro bs rest i h
  obtain ⟨b0, b1, b2, b3, payload, rfl, hlen⟩ := exists_record_of_rest (congrArg Decoded.rest? h)
  rw [decode_record rest hlen] at h
  cases e : commandOf (headerOf b0 b1 b2 b3) payload with
  | none => rw [e] at h; cases h
  | some j =>
    rw [e] at h
    cases h
    refine ⟨?_, by rw [encode_of_commandOf hlen e]⟩
    rw [Instr.Encodable, (payload_of_commandOf e hlen).1, hlen]
    exact payloadLen_lt _

/-! ### A stream of records -/

theorem decodeRecords_encode (fuel : Nat) {i : Instr} (h : i.Encodable) (rest : List Byte) :
    decodeRecords (fuel + 1) (encode i ++ rest) = (decodeRecords fuel rest).map (Record.command i :: ·) := by
  simp only [decodeRecords, decodeOfEncode i rest h]

/-- Fuel for one iteration a record is enough. -/
theorem decodeRecords_flatMap_encode {fuel : Nat} {is : List Instr} (hfuel : is.length ≤ fuel)
    (h : ∀ i ∈ is, i.Encodable) : decodeRecords fuel (is.flatMap encode) = some (is.map Record.command) := by
  induction is generalizing fuel with
  | nil => cases fuel <;> rfl
  | cons i is ih =>
    obtain ⟨hi, his⟩ := List.forall_mem_cons.mp h
    cases fuel with
    | zero => simp at hfuel
    | succ fuel =>
      rw [List.flatMap_cons, decodeRecords_encode fuel hi, ih (Nat.le_of_succ_le_succ hfuel) his]
      rfl

theorem length_le_flatMap_encode (is : List Instr) : is.length ≤ (is.flatMap encode).length := by
  induction is with
  | nil => exact Nat.zero_le _
  | cons i is ih =>
    rw [List.flatMap_cons, List.length_append, (Laws.Shape.of_len i len_lt_of_encodable).1, List.length_cons]
    omega

/-- Settles O3, by induction on the commands: each iteration takes the record of the first. -/
theorem streamDecodesRecordByRecord : Obligations.StreamDecodesRecordByRecord :=
  fun is h => decodeRecords_flatMap_encode (length_le_flatMap_encode is) h

/-! ### The spec's samples -/

theorem decode_of_eq_encode {bs : List Byte} {i : Instr} (h : bs = encode i) (hi : i.Encodable) :
    decode bs = .command i [] := by
  simpa [h] using decodeOfEncode i [] hi

/-- Settles O4: each of these byte lists is the encoding of its command. -/
theorem sampleRecordsDecode : Obligations.SampleRecordsDecode := by
  refine ⟨?_, ?_, ?_, ?_, ?_, ?_, ?_, ?_⟩ <;>
    exact decode_of_eq_encode (by decide) (by decide)

end Sys2Proof
end

section
/-! Proofs about one step and its response: the record it takes, the response it emits, and the form of every response
(`30_encoding.md` R42, R45, R46, R51, R53; `60_exceptions.md` R105). -/

namespace Sys2Proof.Machine

open Sys2Proof.Safety

/-! ### The step, by what the decoder answers -/

theorem step_of_command {s : State} {i : Instr} {rest : List Byte} (h : decode s.cmd = .command i rest) :
    step s = exec i (advance rest s) := by
  simp only [step, fetch, h]

theorem step_of_illegalOpcode {s : State} {hd : Header} {rest : List Byte}
    (h : decode s.cmd = .illegalOpcode hd rest) : step s = raise .illegalOpcode (advance rest s) := by
  simp only [step, fetch, h]

theorem step_of_partialRecord {s : State} (h : decode s.cmd = .partialRecord) : step s = .refused .partialRecord := by
  simp only [step, fetch, h]

theorem step_of_noRecord {s : State} (h : decode s.cmd = .noRecord) : step s = .refused .noCommand := by
  simp only [step, fetch, h]

/-! ### The form of a response -/

/-- EXTRACT's loop squeezes as many bytes as are wanted (`42_sponge.md` R92). -/
theorem squeezeLoop_length {t : Tables} {fuel n : Nat} {c c' : Context} {out : List Byte}
    (h : squeezeLoop t fuel n c = some (out, c')) : out.length = n := by
  induction fuel generalizing n c out with
  | zero =>
    cases n with
    | zero => cases h; rfl
    | succ n => cases h
  | succ fuel ih =>
    cases n with
    | zero => cases h; rfl
    | succ n =>
      rw [squeezeLoop_succ, Option.bind_eq_some_iff] at h
      obtain ⟨bytes, hread, hrest⟩ := h
      obtain ⟨⟨out', c''⟩, hloop, e⟩ := Option.map_eq_some_iff.mp hrest
      cases e
      have hle := chunk_le (n + 1) (refill t c)
      rw [List.length_append, memRead_length hread, ih hloop]
      omega

theorem responseLength_lt (i : Instr) : responseLength i < 65536 := by
  cases i with
  | extract arg len => exact len.isLt
  | _ => simp [responseLength]

theorem responseOk_ok {data : List Byte} (h : data.length < 65536) : ResponseOk ⟨.ok, data⟩ :=
  ⟨h, fun hne => absurd rfl hne⟩

theorem responseOk_fault (code : FaultCode) : ResponseOk ⟨.fault code, []⟩ := ⟨by simp, fun _ => rfl⟩

theorem effect_responseOk {i : Instr} {c c' : Context} {r : Response} (h : Effect i c r c') : ResponseOk r := by
  cases h with
  | fault code => exact responseOk_fault code
  | stateless _ hlen => exact responseOk_ok (hlen ▸ responseLength_lt i)
  | init | inject | flip => exact responseOk_ok (by simp)
  | @extract _ len _ _ _ _ hloop => exact responseOk_ok (squeezeLoop_length hloop ▸ len.isLt)

/-- Every step that goes on takes one record, counts it and emits one response (`30_encoding.md` R42; `10_state.md`
R21). -/
theorem step_takes_record {s t : State} (h : step s = .next t) :
    (decode s.cmd).rest? = some t.cmd ∧ t.index = s.index + 1 ∧ ∃ r, ResponseOk r ∧ t.rsp = s.rsp ++ [r] := by
  obtain ⟨i, rest, hf, r, c, he, rfl⟩ | ⟨hd, rest, hf, rfl⟩ := step_cases h
  · exact ⟨congrArg Decoded.rest? hf, rfl, r, effect_responseOk he, rfl⟩
  · exact ⟨congrArg Decoded.rest? hf, rfl, _, responseOk_fault _, rfl⟩

/-! ### The statements about a step -/

/-- Settles O13: the one response a step emits is of the form. -/
theorem stepKeepsResponsesOk : Obligations.StepKeepsResponsesOk := by
  intro s t hs h r hr
  obtain ⟨-, -, r', hr', e⟩ := step_takes_record h
  rw [e] at hr
  obtain hold | hnew := List.mem_append.mp hr
  · exact hs r hold
  · rwa [List.mem_singleton.mp hnew]

/-- Settles O6: the bytes a step takes are one whole record. -/
theorem stepConsumesOneRecord : Obligations.StepConsumesOneRecord := by
  intro s t h
  obtain ⟨opc, arg, lo, hi, payload, hcmd, hlen⟩ := exists_record_of_rest (step_takes_record h).1
  exact ⟨opc, arg, lo, hi, payload, hcmd, by rw [hlen, payloadLen_headerOf]⟩

/-- Settles O7: no command has such an opcode, so the lookup finds none; EXTRACT's is not among them, so the payload
is `LEN` bytes long. -/
theorem unassignedOpcodeFaults : Obligations.UnassignedOpcodeFaults := by
  intro s opc arg lo hi payload rest hopc hlen hcmd
  have hplen : payload.length = payloadLen (headerOf opc arg lo hi) := by
    rw [payloadLen_headerOf, if_neg (by rintro rfl; exact hopc (by decide)), hlen]
  have hnone : commandOf (headerOf opc arg lo hi) payload = none := by
    refine Option.eq_none_iff_forall_ne_some.mpr fun i e => hopc ?_
    rw [← headerOf_opc opc arg lo hi, ← (opcode_of_commandOf e).1]
    exact opcodeOf_mem_assigned i
  have hdecode : decode s.cmd = .illegalOpcode (headerOf opc arg lo hi) rest := by
    rw [hcmd, decode_record rest hplen, hnone, Option.elim_none]
  rw [step_of_illegalOpcode hdecode]
  rfl

/-- Settles O12: the response and the count of every step. -/
theorem oneResponsePerCommand : Obligations.OneResponsePerCommand := by
  intro s t h
  obtain ⟨-, hindex, r, -, hrsp⟩ := step_takes_record h
  exact ⟨⟨r, hrsp⟩, hindex⟩

/-- Settles O5: taking the record off the port and counting it is `advance`. -/
theorem stepRunsDecodedCommand : Obligations.StepRunsDecodedCommand :=
  fun _ _ _ h => step_of_command h

/-- Settles O8: no byte, less than a header, and less than the payload the header announces. -/
theorem partialRecordIsRefused : Obligations.PartialRecordIsRefused := by
  refine fun s => ⟨fun h => ?_, fun h0 h4 => ?_, fun opc arg lo hi tail hcmd hopc hlen => ?_⟩
  · exact step_of_noRecord (by rw [h]; rfl)
  · exact step_of_partialRecord (decode_short h0 h4)
  · refine step_of_partialRecord (hcmd ▸ decode_short_payload ?_)
    rwa [payloadLen_headerOf, if_neg hopc]

/-- Settles O14: the two `RLEN` bytes hold the number of data bytes, which fits them. -/
theorem responseHeaderLayout : Obligations.ResponseHeaderLayout := by
  intro r h
  refine ⟨BitVec.ofNat 8 r.data.length, BitVec.ofNat 8 (r.data.length / 256), rfl, ?_⟩
  have hlt := h.1
  simp only [BitVec.toNat_ofNat]
  omega

/-! ### The stateless commands -/

/-- One response serves for every state, and nothing else changes (`30_encoding.md` R49). -/
def OneAnswer (f : State → Result) : Prop := ∃ r, ∀ s, f s = .next (emit r s)

theorem oneAnswer_raise (code : FaultCode) : OneAnswer (raise code) := ⟨_, fun _ => rfl⟩

theorem oneAnswer_respondWord (w : Word) : OneAnswer (respondWord w) := ⟨_, fun _ => rfl⟩

theorem oneAnswer_respondLanes (y : Lanes) : OneAnswer (respondLanes y) := ⟨_, fun _ => rfl⟩

section OneAnswer

variable {arg : Byte} {payload : List Byte}

/-! The checks of the header do not look at the state. -/

theorem oneAnswer_withZeroArg {k : State → Result} (hk : OneAnswer k) :
    OneAnswer fun s => withZeroArg arg s (k s) := by
  by_cases h : arg = 0
  · simpa only [withZeroArg, if_pos h] using hk
  · simpa only [withZeroArg, if_neg h] using oneAnswer_raise .illegalOperand

theorem oneAnswer_withLength {n : Nat} {k : State → Result} (hk : OneAnswer k) :
    OneAnswer fun s => withLength n payload s (k s) := by
  by_cases h : payload.length = n
  · simpa only [withLength, if_pos h] using hk
  · simpa only [withLength, if_neg h] using oneAnswer_raise .badLength

theorem oneAnswer_scalars (f : Word → Word → Word) :
    OneAnswer fun s => withScalars arg payload s fun a b => respondWord (f a b) s :=
  oneAnswer_withZeroArg (oneAnswer_withLength (oneAnswer_respondWord _))

theorem oneAnswer_vector (f : Lanes → Lanes) :
    OneAnswer fun s => withVector arg payload s fun x => respondLanes (f x) s :=
  oneAnswer_withZeroArg (oneAnswer_withLength (oneAnswer_respondLanes _))

theorem oneAnswer_vectorRound (f : Fin 7 → Lanes → Lanes) :
    OneAnswer fun s => withVectorRound arg payload s fun r x => respondLanes (f r x) s := by
  by_cases h : arg.toNat < 7
  · simpa only [withVectorRound, dif_pos h] using
      oneAnswer_withLength (oneAnswer_respondLanes (f ⟨arg.toNat, h⟩ (lanesOf payload)))
  · simpa only [withVectorRound, dif_neg h] using oneAnswer_raise .illegalOperand

end OneAnswer

/-- Settles O37: the eleven commands check their header and answer a function of their payload. -/
theorem statelessCommands : Obligations.StatelessCommands := by
  intro i hi
  cases i with
  | fadd => exact oneAnswer_scalars fadd
  | fsub => exact oneAnswer_scalars fsub
  | fmul => exact oneAnswer_scalars fmul
  | fred => exact oneAnswer_scalars fred
  | mds => exact oneAnswer_vector (mds Config.tables)
  | ark1 => exact oneAnswer_vectorRound (ark1 Config.tables)
  | ark2 => exact oneAnswer_vectorRound (ark2 Config.tables)
  | sbox => exact oneAnswer_vector sbox
  | isbox => exact oneAnswer_vector isbox
  | round => exact oneAnswer_vectorRound (oneRound Config.tables)
  | perm => exact oneAnswer_vector (permute Config.tables)
  | init | inject | flip | extract => exact hi.elim

end Sys2Proof.Machine
end

section
/-! Proofs about the assembler: which commands its lines stand for, and what the pseudo-instructions answer
(`30_encoding.md` R47, R54, R55). -/

namespace Sys2Proof.Machine

/-! ### The operands a line writes -/

@[simp] theorem scalarPayload_length (a b : Word) : (scalarPayload a b).length = 16 := by
  simp [scalarPayload]

@[simp] theorem roundArg_toNat (r : Fin 7) : (roundArg r).toNat = r.val := by
  simp only [roundArg, BitVec.toNat_ofNat]
  omega

/-- Sixteen payload bytes are two words (`30_encoding.md` R50). -/
theorem exists_scalarPayload {payload : List Byte} (h : payload.length = 16) :
    ∃ a b, payload = scalarPayload a b := by
  refine ⟨le64 (payload.take 8), le64 (payload.drop 8), ?_⟩
  rw [scalarPayload, le64inv_le64 (by simp [h]), le64inv_le64 (by simp [h]), List.take_append_drop]

/-- Ninety-six payload bytes are a vector (`30_encoding.md` R50). -/
theorem exists_bufOf {payload : List Byte} (h : payload.length = 96) : ∃ x, payload = bufOf x :=
  ⟨lanesOf payload, (bufOf_lanesOf h).symm⟩

theorem exists_roundArg {arg : Byte} (h : arg.toNat ≤ 6) : ∃ r, arg = roundArg r :=
  ⟨⟨arg.toNat, by omega⟩, BitVec.eq_of_toNat_eq (by simp)⟩

/-! ### From lines to commands -/

theorem argAllowed_assemble (a : Asm) : (assemble a).argAllowed = true := by
  cases a with
  | ark1 r | ark2 r | round r =>
    exact (allowsArg_vectorRound_true _).mpr ((roundArg_toNat r).trans_le (Nat.le_of_lt_succ r.isLt))
  | _ => rfl

theorem lenAllowed_assemble (a : Asm) : (assemble a).lenAllowed = true := by
  cases a with
  | fadd | fsub | fmul | fred | fneg | fsqr | fcanon => exact beq_iff_eq.mpr (scalarPayload_length _ _)
  | mds | ark1 | ark2 | sbox | isbox | round | perm => exact beq_iff_eq.mpr (bufOf_length _)
  | init | flip | inject | extract | injectWords => rfl

/-! ### From well-formed commands to lines -/

theorem len_eq_payload_length {i : Instr} (h : i.format ≠ .bytesOut) : i.len = i.payload.length := by
  cases i with
  | extract => exact absurd rfl h
  | _ => rfl

section Operands

variable {i : Instr} (h : i.WellFormed)
include h

theorem arg_eq_zero_of_wellFormed (hf : i.format ≠ .vectorRound) : i.arg = 0 := by
  obtain ⟨-, harg, -⟩ := h
  exact (allowsArg_true_of_ne hf i.arg).mp harg

theorem exists_roundArg_of_wellFormed (hf : i.format = .vectorRound) : ∃ r, i.arg = roundArg r := by
  obtain ⟨-, harg, -⟩ := h
  rw [Instr.argAllowed, hf, allowsArg_vectorRound_true] at harg
  exact exists_roundArg harg

theorem payload_length_of_wellFormed (hf : i.format ≠ .bytesOut) :
    (i.format = .noOperand → i.payload.length = 0) ∧ (i.format = .scalars → i.payload.length = 16) ∧
    (i.format = .vector ∨ i.format = .vectorRound → i.payload.length = 96) := by
  obtain ⟨-, -, hlen⟩ := h
  rwa [Instr.lenAllowed, len_eq_payload_length hf, allowsLen_true] at hlen

theorem operands_of_noOperand (hf : i.format = .noOperand) : i.arg = 0 ∧ i.payload = [] := by
  obtain ⟨hlen, -, -⟩ := payload_length_of_wellFormed h (by simp [hf])
  exact ⟨arg_eq_zero_of_wellFormed h (by simp [hf]), List.length_eq_zero_iff.mp (hlen hf)⟩

theorem operands_of_scalars (hf : i.format = .scalars) : i.arg = 0 ∧ ∃ a b, i.payload = scalarPayload a b := by
  obtain ⟨-, hlen, -⟩ := payload_length_of_wellFormed h (by simp [hf])
  exact ⟨arg_eq_zero_of_wellFormed h (by simp [hf]), exists_scalarPayload (hlen hf)⟩

theorem operands_of_vector (hf : i.format = .vector) : i.arg = 0 ∧ ∃ x, i.payload = bufOf x := by
  obtain ⟨-, -, hlen⟩ := payload_length_of_wellFormed h (by simp [hf])
  exact ⟨arg_eq_zero_of_wellFormed h (by simp [hf]), exists_bufOf (hlen (.inl hf))⟩

theorem operands_of_vectorRound (hf : i.format = .vectorRound) :
    ∃ r x, i.arg = roundArg r ∧ i.payload = bufOf x := by
  obtain ⟨-, -, hlen⟩ := payload_length_of_wellFormed h (by simp [hf])
  obtain ⟨r, hr⟩ := exists_roundArg_of_wellFormed h hf
  obtain ⟨x, hx⟩ := exists_bufOf (hlen (.inr hf))
  exact ⟨r, x, hr, hx⟩

end Operands

/-- A well-formed command of each format has the operands of its assembly line. -/
theorem exists_assemble {i : Instr} (h : i.WellFormed) : ∃ a, assemble a = i := by
  cases i with
  | fadd => obtain ⟨rfl, a, b, rfl⟩ := operands_of_scalars h rfl; exact ⟨.fadd a b, rfl⟩
  | fsub => obtain ⟨rfl, a, b, rfl⟩ := operands_of_scalars h rfl; exact ⟨.fsub a b, rfl⟩
  | fmul => obtain ⟨rfl, a, b, rfl⟩ := operands_of_scalars h rfl; exact ⟨.fmul a b, rfl⟩
  | fred => obtain ⟨rfl, a, b, rfl⟩ := operands_of_scalars h rfl; exact ⟨.fred a b, rfl⟩
  | mds => obtain ⟨rfl, x, rfl⟩ := operands_of_vector h rfl; exact ⟨.mds x, rfl⟩
  | ark1 => obtain ⟨r, x, rfl, rfl⟩ := operands_of_vectorRound h rfl; exact ⟨.ark1 r x, rfl⟩
  | ark2 => obtain ⟨r, x, rfl, rfl⟩ := operands_of_vectorRound h rfl; exact ⟨.ark2 r x, rfl⟩
  | sbox => obtain ⟨rfl, x, rfl⟩ := operands_of_vector h rfl; exact ⟨.sbox x, rfl⟩
  | isbox => obtain ⟨rfl, x, rfl⟩ := operands_of_vector h rfl; exact ⟨.isbox x, rfl⟩
  | round => obtain ⟨r, x, rfl, rfl⟩ := operands_of_vectorRound h rfl; exact ⟨.round r x, rfl⟩
  | perm => obtain ⟨rfl, x, rfl⟩ := operands_of_vector h rfl; exact ⟨.perm x, rfl⟩
  | init => obtain ⟨rfl, rfl⟩ := operands_of_noOperand h rfl; exact ⟨.init, rfl⟩
  | inject arg data => obtain rfl := arg_eq_zero_of_wellFormed h nofun; exact ⟨.inject data, rfl⟩
  | flip => obtain ⟨rfl, rfl⟩ := operands_of_noOperand h rfl; exact ⟨.flip, rfl⟩
  | extract arg len => obtain rfl := arg_eq_zero_of_wellFormed h nofun; exact ⟨.extract len, rfl⟩

/-- Settles O58: a line's operands have the values and the lengths its format allows, and only these. -/
theorem assemblerCoversWellFormed : Obligations.AssemblerCoversWellFormed :=
  ⟨fun a h => ⟨h, argAllowed_assemble a, lenAllowed_assemble a⟩, fun _ => exists_assemble⟩

/-! ### The pseudo-instructions -/

theorem withScalars_scalarPayload (a b : Word) (s : State) (k : Word → Word → Result) :
    withScalars 0 (scalarPayload a b) s k = k a b := by
  have ha : wordAt (scalarPayload a b) 0 = a := by
    rw [scalarPayload, wordAt_append_zero _ _ (le64inv_length a), le64_le64inv]
  have hb : wordAt (scalarPayload a b) 1 = b := by
    rw [scalarPayload, wordAt_append_one _ _ (le64inv_length a) (le64inv_length b), le64_le64inv]
  obtain ⟨-, -, e⟩ | ⟨h, -⟩ | ⟨-, h, -⟩ := withScalars_cases 0 (scalarPayload a b) s k
  · rw [e, ha, hb]
  · exact absurd rfl h
  · exact absurd (scalarPayload_length a b) h

theorem fsub_zero_left (a : Word) : fsub 0 a = BitVec.ofNat 64 ((modulus - a.toNat % modulus) % modulus) := by
  apply BitVec.eq_of_toNat_eq
  have h : ((fsub 0 a).toNat : Int) = (0 - (a.toNat : Int)) % (modulus : Int) := fsub_toNat 0 a
  simp only [modulus] at h
  rw [toNat_ofNat_mod]
  simp only [modulus]
  omega

theorem fmul_self (a : Word) : fmul a a = BitVec.ofNat 64 (a.toNat ^ 2 % modulus) := by
  rw [fmul, Nat.pow_two]

theorem fred_zero_right (a : Word) : fred a 0 = BitVec.ofNat 64 (a.toNat % modulus) := by
  simp [fred]

/-- Settles O59: each stands for a command whose field function, on those operands, is the named residue. -/
theorem pseudoInstructionResults : Obligations.PseudoInstructionResults := by
  refine fun s a ws => ⟨?_, ?_, ?_, rfl⟩
  · rw [← fsub_zero_left]
    exact withScalars_scalarPayload 0 a s fun a b => respondWord (fsub a b) s
  · rw [← fmul_self]
    exact withScalars_scalarPayload a a s fun a b => respondWord (fmul a b) s
  · rw [← fred_zero_right]
    exact withScalars_scalarPayload a 0 s fun lo hi => respondWord (fred lo hi) s

end Sys2Proof.Machine
end

section
/-! Proofs about the field arithmetic unit: a word's value in the field of `p` elements and the laws it carries over,
the primality of `p` and the two S-boxes, the scalar commands, and the carry-level algorithms (`40_field.md`). -/

namespace Sys2Proof.Machine

/-! ### The value of a word -/

/-- The field element a word stands for, in Mathlib's field (`00_scope.md` section 5, `F(w)`). -/
def fieldVal (w : Word) : ZMod modulus := (w.toNat : ZMod modulus)

theorem fieldVal_eq_natCast {w : Word} {n : Nat} (h : w.toNat = n % modulus) : fieldVal w = n := by
  rw [fieldVal, h, ZMod.natCast_mod]

@[simp] theorem fieldVal_zero : fieldVal 0#64 = 0 := Nat.cast_zero

@[simp] theorem fieldVal_one : fieldVal 1#64 = 1 := Nat.cast_one

theorem fieldVal_seven : fieldVal 7 = 7 := Nat.cast_ofNat

@[simp] theorem fieldVal_residue (a : Word) : fieldVal (residue a) = fieldVal a :=
  fieldVal_eq_natCast (residue_toNat a)

@[simp] theorem fieldVal_fadd (a b : Word) : fieldVal (fadd a b) = fieldVal a + fieldVal b := by
  rw [fieldVal_eq_natCast (fadd_toNat a b), Nat.cast_add, fieldVal, fieldVal]

@[simp] theorem fieldVal_fsub (a b : Word) : fieldVal (fsub a b) = fieldVal a - fieldVal b := by
  have h := congrArg (Int.cast (R := ZMod modulus)) (fsub_toNat a b)
  rwa [ZMod.intCast_mod, Int.cast_sub, Int.cast_natCast, Int.cast_natCast, Int.cast_natCast] at h

@[simp] theorem fieldVal_fmul (a b : Word) : fieldVal (fmul a b) = fieldVal a * fieldVal b := by
  rw [fieldVal_eq_natCast (fmul_toNat a b), Nat.cast_mul, fieldVal, fieldVal]

@[simp] theorem fieldVal_fred (lo hi : Word) : fieldVal (fred lo hi) = fieldVal hi * 2 ^ 64 + fieldVal lo := by
  rw [fieldVal_eq_natCast (fred_toNat lo hi), Nat.cast_add, Nat.cast_mul, Nat.cast_pow, Nat.cast_ofNat, fieldVal,
    fieldVal]

@[simp] theorem fieldVal_fpow (a : Word) (e : Nat) : fieldVal (fpow a e) = fieldVal a ^ e := by
  rw [fieldVal_eq_natCast (fpow_toNat a e), Nat.cast_pow, fieldVal]

/-! ### Canonical results -/

theorem canonical_residue (a : Word) : Canonical (residue a) := canonical_of_toNat (residue_toNat a)

theorem canonical_fadd (a b : Word) : Canonical (fadd a b) := canonical_of_toNat (fadd_toNat a b)

theorem canonical_fmul (a b : Word) : Canonical (fmul a b) := canonical_of_toNat (fmul_toNat a b)

theorem canonical_fred (lo hi : Word) : Canonical (fred lo hi) := canonical_of_toNat (fred_toNat lo hi)

theorem canonical_fpow (a : Word) (e : Nat) : Canonical (fpow a e) := canonical_of_toNat (fpow_toNat a e)

theorem canonical_fsub (a b : Word) : Canonical (fsub a b) := by
  have h := Int.emod_lt_of_pos ((a.toNat : Int) - b.toNat) (show (0 : Int) < modulus by decide)
  rw [← fsub_toNat] at h
  exact Int.ofNat_lt.mp h

/-- A canonical word is determined by its value in the field (`00_scope.md` section 5). -/
theorem eq_of_fieldVal_eq {a b : Word} (ha : Canonical a) (hb : Canonical b) (h : fieldVal a = fieldVal b) : a = b := by
  apply BitVec.eq_of_toNat_eq
  rwa [fieldVal, fieldVal, ZMod.natCast_eq_natCast_iff', Nat.mod_eq_of_lt ha, Nat.mod_eq_of_lt hb] at h

/-! ### The laws of the field

Both sides are canonical, and have the same value in the field, where the law holds (`40_field.md` R70). -/

theorem fadd_zero (a : Word) : fadd a 0 = residue a :=
  eq_of_fieldVal_eq (canonical_fadd a 0) (canonical_residue a) (by simp)

theorem fmul_one (a : Word) : fmul a 1 = residue a :=
  eq_of_fieldVal_eq (canonical_fmul a 1) (canonical_residue a) (by simp)

theorem fadd_fsub_zero (a : Word) : fadd a (fsub 0 a) = 0 :=
  eq_of_fieldVal_eq (canonical_fadd _ _) (by decide) (by simp)

theorem fadd_comm (a b : Word) : fadd a b = fadd b a :=
  eq_of_fieldVal_eq (canonical_fadd a b) (canonical_fadd b a) (by simp [add_comm])

theorem fmul_comm (a b : Word) : fmul a b = fmul b a :=
  eq_of_fieldVal_eq (canonical_fmul a b) (canonical_fmul b a) (by simp [mul_comm])

theorem fadd_assoc (a b c : Word) : fadd (fadd a b) c = fadd a (fadd b c) :=
  eq_of_fieldVal_eq (canonical_fadd _ _) (canonical_fadd _ _) (by simp [add_assoc])

theorem fmul_assoc (a b c : Word) : fmul (fmul a b) c = fmul a (fmul b c) :=
  eq_of_fieldVal_eq (canonical_fmul _ _) (canonical_fmul _ _) (by simp [mul_assoc])

theorem fmul_fadd (a b c : Word) : fmul a (fadd b c) = fadd (fmul a b) (fmul a c) :=
  eq_of_fieldVal_eq (canonical_fmul _ _) (canonical_fadd _ _) (by simp [mul_add])

theorem fsub_eq_fadd_fsub_zero (a b : Word) : fsub a b = fadd a (fsub 0 b) :=
  eq_of_fieldVal_eq (canonical_fsub _ _) (canonical_fadd _ _) (by simp [sub_eq_add_neg])

@[simp] theorem fadd_residue_residue (a b : Word) : fadd (residue a) (residue b) = fadd a b :=
  eq_of_fieldVal_eq (canonical_fadd _ _) (canonical_fadd _ _) (by simp)

@[simp] theorem fsub_residue_residue (a b : Word) : fsub (residue a) (residue b) = fsub a b :=
  eq_of_fieldVal_eq (canonical_fsub _ _) (canonical_fsub _ _) (by simp)

@[simp] theorem fmul_residue_residue (a b : Word) : fmul (residue a) (residue b) = fmul a b :=
  eq_of_fieldVal_eq (canonical_fmul _ _) (canonical_fmul _ _) (by simp)

@[simp] theorem fred_residue_residue (lo hi : Word) : fred (residue lo) (residue hi) = fred lo hi :=
  eq_of_fieldVal_eq (canonical_fred _ _) (canonical_fred _ _) (by simp)

/-- Settles O21: closure, then the laws that hold in the field. -/
theorem fieldLaws : Obligations.FieldLaws := fun a b c =>
  ⟨⟨canonical_fadd a b, canonical_fsub a b, canonical_fmul a b, canonical_fred a b⟩,
    ⟨fadd_zero a, fmul_one a, fadd_fsub_zero a⟩,
    ⟨fadd_comm a b, fmul_comm a b⟩,
    ⟨fadd_assoc a b c, fmul_assoc a b c⟩,
    fmul_fadd a b c,
    fsub_eq_fadd_fsub_zero a b,
    ⟨fadd_residue_residue a b, fsub_residue_residue a b, fmul_residue_residue a b, fred_residue_residue a b⟩⟩

/-! ### The modulus is prime -/

theorem modulus_sub_one : modulus - 1 = 2 ^ 32 * (3 * (5 * (17 * (257 * 65537)))) := by norm_num

/-- The prime factors of the order of the multiplicative group. -/
theorem eq_of_prime_dvd_modulus_sub_one {q : Nat} (hq : q.Prime) (h : q ∣ modulus - 1) :
    q = 2 ∨ q = 3 ∨ q = 5 ∨ q = 17 ∨ q = 257 ∨ q = 65537 := by
  rw [modulus_sub_one] at h
  simp only [hq.dvd_mul] at h
  obtain h | h | h | h | h | h := h
  · exact .inl ((Nat.prime_dvd_prime_iff_eq hq Nat.prime_two).mp (hq.dvd_of_dvd_pow h))
  all_goals rw [Nat.prime_dvd_prime_iff_eq hq (by norm_num)] at h; simp [h]

theorem seven_pow_eq_one_iff (e : Nat) : (7 : ZMod modulus) ^ e = 1 ↔ fpow 7 e = 1 := by
  rw [← fieldVal_one, ← fieldVal_seven, ← fieldVal_fpow]
  exact ⟨eq_of_fieldVal_eq (canonical_fpow 7 e) (by decide), congrArg fieldVal⟩

/-- `p` is prime, by Lucas's test with the primitive root 7 (`00_scope.md` R2). The powers are evaluated by the block's
own square and multiply. -/
theorem prime_modulus : modulus.Prime := by
  refine lucas_primality modulus 7 ((seven_pow_eq_one_iff _).mpr (by decide)) fun q hq hdvd => ?_
  rw [Ne, seven_pow_eq_one_iff]
  obtain rfl | rfl | rfl | rfl | rfl | rfl := eq_of_prime_dvd_modulus_sub_one hq hdvd
  all_goals decide

/-! ### The two S-boxes -/

theorem alpha_mul_invAlpha : alpha * invAlpha = 4 * (modulus - 1) + 1 := by decide

/-- The exponents of the two S-boxes undo each other: `7·d ≡ 1 (mod p − 1)` and `p` is prime (`40_field.md` R70). -/
theorem pow_alpha_mul_invAlpha (x : ZMod modulus) : x ^ (alpha * invAlpha) = x := by
  have : Fact modulus.Prime := ⟨prime_modulus⟩
  rw [alpha_mul_invAlpha, pow_succ, pow_mul']
  by_cases hx : x = 0
  · rw [hx, mul_zero]
  · rw [ZMod.pow_card_sub_one_eq_one hx, one_pow, one_mul]

theorem fpow_fpow_alpha (a : Word) : fpow (fpow a alpha) invAlpha = residue a := by
  refine eq_of_fieldVal_eq (canonical_fpow _ _) (canonical_residue _) ?_
  rw [fieldVal_fpow, fieldVal_fpow, ← pow_mul, pow_alpha_mul_invAlpha, fieldVal_residue]

theorem fpow_fpow_invAlpha (a : Word) : fpow (fpow a invAlpha) alpha = residue a := by
  refine eq_of_fieldVal_eq (canonical_fpow _ _) (canonical_residue _) ?_
  rw [fieldVal_fpow, fieldVal_fpow, ← pow_mul', pow_alpha_mul_invAlpha, fieldVal_residue]

@[simp] theorem getElem_sbox (x : Lanes) {i : Nat} (hi : i < 12) : (sbox x)[i] = fpow x[i] alpha := by
  simp [sbox]

@[simp] theorem getElem_isbox (x : Lanes) {i : Nat} (hi : i < 12) : (isbox x)[i] = fpow x[i] invAlpha := by
  simp [isbox]

@[simp] theorem getElem_residues (x : Lanes) {i : Nat} (hi : i < 12) : (residues x)[i] = residue x[i] := by
  simp [residues]

/-- Settles O33: lane by lane, the powers compose to `x^(7·d) = x` in the field. -/
theorem sboxesAreInverse : Obligations.SboxesAreInverse := by
  refine fun x => ⟨Vector.ext fun i hi => ?_, Vector.ext fun i hi => ?_⟩
  · rw [getElem_isbox, getElem_sbox, fpow_fpow_alpha, getElem_residues]
  · rw [getElem_sbox, getElem_isbox, fpow_fpow_invAlpha, getElem_residues]

/-! ### The scalar commands -/

theorem leNat_append (u v : List Byte) : leNat (u ++ v) = leNat u + 256 ^ u.length * leNat v := by
  induction u with
  | nil => simp [leNat]
  | cons x xs ih =>
    rw [List.cons_append, leNat, leNat, ih, List.length_cons, Nat.pow_succ]
    ring

@[simp] theorem leNat_le64inv (w : Word) : leNat (le64inv w) = w.toNat := by
  rw [le64inv, leNat_leBytes]
  exact Nat.mod_eq_of_lt w.isLt

theorem leNat_take_scalarPayload (a b : Word) : leNat ((scalarPayload a b).take 8) = a.toNat := by
  rw [scalarPayload, List.take_left' (le64inv_length a), leNat_le64inv]

theorem leNat_drop_scalarPayload (a b : Word) : leNat ((scalarPayload a b).drop 8) = b.toNat := by
  rw [scalarPayload, List.drop_left' (le64inv_length a), leNat_le64inv]

theorem leNat_scalarPayload (a b : Word) : leNat (scalarPayload a b) = b.toNat * 2 ^ 64 + a.toNat := by
  rw [scalarPayload, leNat_append, le64inv_length, leNat_le64inv, leNat_le64inv]
  ring

theorem exec_fadd_scalarPayload (a b : Word) (s : State) :
    exec (.fadd 0 (scalarPayload a b)) s = respondWord (fadd a b) s :=
  withScalars_scalarPayload a b s fun a b => respondWord (fadd a b) s

theorem exec_fsub_scalarPayload (a b : Word) (s : State) :
    exec (.fsub 0 (scalarPayload a b)) s = respondWord (fsub a b) s :=
  withScalars_scalarPayload a b s fun a b => respondWord (fsub a b) s

theorem exec_fmul_scalarPayload (a b : Word) (s : State) :
    exec (.fmul 0 (scalarPayload a b)) s = respondWord (fmul a b) s :=
  withScalars_scalarPayload a b s fun a b => respondWord (fmul a b) s

theorem exec_fred_scalarPayload (lo hi : Word) (s : State) :
    exec (.fred 0 (scalarPayload lo hi)) s = respondWord (fred lo hi) s :=
  withScalars_scalarPayload lo hi s fun lo hi => respondWord (fred lo hi) s

/-- Settles O17: the payload is the two words whose sum `fadd` reduces. -/
theorem faddResult : Obligations.FaddResult := by
  intro s payload h
  obtain ⟨a, b, rfl⟩ := exists_scalarPayload h
  rw [exec_fadd_scalarPayload, leNat_take_scalarPayload, leNat_drop_scalarPayload, ← fadd_toNat]
  rfl

/-- Settles O18: the payload is the two words whose integer difference `fsub` reduces. -/
theorem fsubResult : Obligations.FsubResult := by
  intro s payload h
  obtain ⟨a, b, rfl⟩ := exists_scalarPayload h
  rw [exec_fsub_scalarPayload, leNat_take_scalarPayload, leNat_drop_scalarPayload, ← fsub_toNat, Int.toNat_natCast]
  rfl

/-- Settles O19: the payload is the two words whose product `fmul` reduces. -/
theorem fmulResult : Obligations.FmulResult := by
  intro s payload h
  obtain ⟨a, b, rfl⟩ := exists_scalarPayload h
  rw [exec_fmul_scalarPayload, leNat_take_scalarPayload, leNat_drop_scalarPayload, ← fmul_toNat]
  rfl

/-- Settles O20: the payload's number is `hi·2^64 + lo`. -/
theorem fredResult : Obligations.FredResult := by
  intro s payload h
  obtain ⟨lo, hi, rfl⟩ := exists_scalarPayload h
  rw [exec_fred_scalarPayload, leNat_scalarPayload, ← fred_toNat]
  rfl

/-! ### The carry-level algorithms -/

@[simp] theorem modulusWord_toNat : modulusWord.toNat = modulus := rfl

@[simp] theorem epsWord_toNat : epsWord.toNat = eps := rfl

/-- `2^64 < 2p`, so one conditional subtraction of `p` canonicalises any word (`40_field.md` R69). -/
theorem subtractOnce_eq_residue (w : Word) : subtractOnce w = residue w := by
  apply BitVec.eq_of_toNat_eq
  have hw := w.isLt
  rw [residue_toNat, subtractOnce, modulusWord_toNat]
  split
  · rw [BitVec.toNat_sub, modulusWord_toNat]
    simp only [modulus] at *
    omega
  · simp only [modulus] at *
    omega

/-- A sum of two words, with `EPS = 2^64 mod p` added on a carry, when the correction does not carry again
(`40_field.md` R60, R69). -/
theorem addCanonical_eq_fadd {a b : Word} (h : a.toNat + b.toNat + eps < 2 ^ 65) : addCanonical a b = fadd a b := by
  apply BitVec.eq_of_toNat_eq
  have ha := a.isLt
  have hb := b.isLt
  rw [addCanonical, subtractOnce_eq_residue, residue_toNat, fadd_toNat]
  simp only [carryOut, decide_eq_true_eq]
  split
  · rw [BitVec.toNat_add, BitVec.toNat_add, epsWord_toNat]
    simp only [modulus, eps] at *
    omega
  · rw [BitVec.toNat_add_of_lt (by omega)]

theorem subCanonical_eq_fsub {a b : Word} (ha : Canonical a) (hb : Canonical b) : subCanonical a b = fsub a b := by
  apply BitVec.eq_of_toNat_eq
  have hf := fsub_toNat a b
  simp only [subCanonical, borrowOut, decide_eq_true_eq, Canonical] at *
  split
  · rw [BitVec.toNat_add, BitVec.toNat_sub, modulusWord_toNat]
    simp only [modulus] at *
    omega
  · rw [BitVec.toNat_sub]
    simp only [modulus] at *
    omega

/-- Settles O22: neither correction leaves the 64 bits on canonical operands. -/
theorem canonicalAlgorithms : Obligations.CanonicalAlgorithms := by
  refine fun a b ha hb => ⟨addCanonical_eq_fadd ?_, subCanonical_eq_fsub ha hb⟩
  simp only [Canonical, modulus] at ha hb
  simp only [eps]
  omega

/-! #### Halves of a word -/

theorem lowHalf_toNat (w : Word) : (lowHalf w).toNat = w.toNat % 2 ^ 32 := by
  simp only [lowHalf, BitVec.toNat_setWidth, BitVec.extractLsb'_toNat]
  omega

theorem highHalf_toNat (w : Word) : (highHalf w).toNat = w.toNat / 2 ^ 32 := by
  have hw := w.isLt
  simp only [highHalf, BitVec.toNat_setWidth, BitVec.extractLsb'_toNat, Nat.shiftRight_eq_div_pow]
  omega

theorem lowHalf_lt (w : Word) : (lowHalf w).toNat < 2 ^ 32 := by
  rw [lowHalf_toNat]
  exact Nat.mod_lt _ (by decide)

theorem highHalf_lt (w : Word) : (highHalf w).toNat < 2 ^ 32 := by
  have hw := w.isLt
  rw [highHalf_toNat]
  omega

theorem toNat_eq_halves (w : Word) : w.toNat = (highHalf w).toNat * 2 ^ 32 + (lowHalf w).toNat := by
  rw [highHalf_toNat, lowHalf_toNat]
  omega

/-! #### The product by halves -/

section PartialProduct

/-! Two halves `x` and `y` and their product, one of the four partial products (`40_field.md` R68). -/

variable {x y : Word} (hx : x.toNat < 2 ^ 32) (hy : y.toNat < 2 ^ 32)
include hx hy

theorem toNat_mul_toNat_le : x.toNat * y.toNat ≤ (2 ^ 32 - 1) * (2 ^ 32 - 1) :=
  Nat.mul_le_mul (Nat.le_pred_of_lt hx) (Nat.le_pred_of_lt hy)

theorem partialProduct_toNat : (x * y).toNat = x.toNat * y.toNat := by
  have h := toNat_mul_toNat_le hx hy
  rw [BitVec.toNat_mul]
  exact Nat.mod_eq_of_lt (by omega)

theorem partialProduct_le : (x * y).toNat ≤ (2 ^ 32 - 1) * (2 ^ 32 - 1) :=
  (partialProduct_toNat hx hy).trans_le (toNat_mul_toNat_le hx hy)

theorem highHalf_partialProduct_le : (highHalf (x * y)).toNat ≤ 2 ^ 32 - 2 := by
  have h := partialProduct_le hx hy
  rw [highHalf_toNat]
  omega

end PartialProduct

theorem lowHalf_shiftLeft_toNat (w : Word) : (lowHalf w <<< 32).toNat = (lowHalf w).toNat * 2 ^ 32 := by
  have hw := lowHalf_lt w
  rw [BitVec.toNat_shiftLeft, Nat.shiftLeft_eq]
  omega

theorem mulMid_toNat (a b : Word) : (mulMid a b).toNat = (highHalf (lowHalf a * lowHalf b)).toNat +
    (lowHalf (lowHalf a * highHalf b)).toNat + (lowHalf (highHalf a * lowHalf b)).toNat := by
  have h0 := highHalf_lt (lowHalf a * lowHalf b)
  have h1 := lowHalf_lt (lowHalf a * highHalf b)
  have h2 := lowHalf_lt (highHalf a * lowHalf b)
  simp only [mulMid, BitVec.toNat_add]
  omega

theorem highHalf_mulMid_le (a b : Word) : (highHalf (mulMid a b)).toNat ≤ 2 := by
  have h0 := highHalf_lt (lowHalf a * lowHalf b)
  have h1 := lowHalf_lt (lowHalf a * highHalf b)
  have h2 := lowHalf_lt (highHalf a * lowHalf b)
  rw [highHalf_toNat, mulMid_toNat]
  omega

theorem mulLo_toNat (a b : Word) :
    (mulLo a b).toNat = (lowHalf (lowHalf a * lowHalf b)).toNat + (lowHalf (mulMid a b)).toNat * 2 ^ 32 := by
  have h0 := lowHalf_lt (lowHalf a * lowHalf b)
  have h1 := lowHalf_lt (mulMid a b)
  rw [mulLo, BitVec.toNat_add, lowHalf_shiftLeft_toNat]
  omega

theorem mulHi_toNat (a b : Word) : (mulHi a b).toNat = (highHalf a * highHalf b).toNat +
    (highHalf (lowHalf a * highHalf b)).toNat + (highHalf (highHalf a * lowHalf b)).toNat +
    (highHalf (mulMid a b)).toNat := by
  have hhh := partialProduct_le (highHalf_lt a) (highHalf_lt b)
  have hlh := highHalf_partialProduct_le (lowHalf_lt a) (highHalf_lt b)
  have hhl := highHalf_partialProduct_le (highHalf_lt a) (lowHalf_lt b)
  have hmid := highHalf_mulMid_le a b
  simp only [mulHi, BitVec.toNat_add]
  omega

/-- `a·b = ll + 2^32·(lh + hl) + 2^64·hh` (`40_field.md` R68). -/
theorem toNat_mul_eq_partialProducts (a b : Word) : a.toNat * b.toNat = (highHalf a * highHalf b).toNat * 2 ^ 64 +
    ((lowHalf a * highHalf b).toNat + (highHalf a * lowHalf b).toNat) * 2 ^ 32 + (lowHalf a * lowHalf b).toNat := by
  rw [partialProduct_toNat (highHalf_lt a) (highHalf_lt b), partialProduct_toNat (lowHalf_lt a) (highHalf_lt b),
    partialProduct_toNat (highHalf_lt a) (lowHalf_lt b), partialProduct_toNat (lowHalf_lt a) (lowHalf_lt b),
    toNat_eq_halves a, toNat_eq_halves b]
  ring

/-- The four partial products, each cut into its halves, add up to the product (`40_field.md` R68). -/
theorem mulHi_mulLo_toNat (a b : Word) :
    (mulHi a b).toNat * 2 ^ 64 + (mulLo a b).toNat = a.toNat * b.toNat := by
  rw [toNat_mul_eq_partialProducts, mulHi_toNat, mulLo_toNat, toNat_eq_halves (lowHalf a * lowHalf b),
    toNat_eq_halves (lowHalf a * highHalf b), toNat_eq_halves (highHalf a * lowHalf b)]
  have hmid := mulMid_toNat a b
  rw [toNat_eq_halves (mulMid a b)] at hmid
  linear_combination 2 ^ 32 * hmid

/-- Settles O23: the two words are the exact product, so their residue is the product in the field. -/
theorem productByHalvesIsExact : Obligations.ProductByHalvesIsExact := by
  refine fun a b => ⟨mulHi_mulLo_toNat a b, ?_⟩
  rw [fred, mulHi_mulLo_toNat, fmul]

/-! #### The reduction -/

/-- The first subtraction: a borrow costs `2^64 − EPS = p`, which is no change in the field (`40_field.md` R69). -/
theorem reduceT0_toNat (lo hi : Word) : (reduceT0 lo hi).toNat + (highHalf hi).toNat = lo.toNat ∨
    (reduceT0 lo hi).toNat + (highHalf hi).toNat = lo.toNat + modulus := by
  have hlo := lo.isLt
  have hhh := highHalf_lt hi
  simp only [reduceT0, borrowOut, decide_eq_true_eq]
  split
  · rw [BitVec.toNat_sub, BitVec.toNat_sub, epsWord_toNat]
    simp only [eps, modulus]
    omega
  · rw [BitVec.toNat_sub]
    omega

theorem reduceT1_toNat (hi : Word) : (reduceT1 hi).toNat = (lowHalf hi).toNat * eps := by
  have hhl := lowHalf_lt hi
  rw [reduceT1, BitVec.toNat_sub, lowHalf_shiftLeft_toNat]
  simp only [eps]
  omega

theorem fieldVal_reduceT0 (lo hi : Word) : fieldVal (reduceT0 lo hi) = fieldVal lo - fieldVal (highHalf hi) := by
  rw [eq_sub_iff_add_eq, fieldVal, fieldVal, fieldVal, ← Nat.cast_add]
  obtain h | h := reduceT0_toNat lo hi
  · rw [h]
  · rw [h, Nat.cast_add, ZMod.natCast_self, add_zero]

theorem fieldVal_reduceT1 (hi : Word) : fieldVal (reduceT1 hi) = fieldVal (lowHalf hi) * 2 ^ 64 := by
  have heps : ((eps : Nat) : ZMod modulus) = 2 ^ 64 := by
    have h := (ZMod.natCast_eq_natCast_iff' eps (2 ^ 64) modulus).mpr (by decide)
    rwa [Nat.cast_pow, Nat.cast_ofNat] at h
  rw [fieldVal, reduceT1_toNat, Nat.cast_mul, heps, fieldVal]

theorem fieldVal_halves (w : Word) : fieldVal w = fieldVal (highHalf w) * 2 ^ 32 + fieldVal (lowHalf w) := by
  rw [fieldVal, toNat_eq_halves, Nat.cast_add, Nat.cast_mul, Nat.cast_pow, Nat.cast_ofNat, fieldVal, fieldVal]

/-- `2^96 ≡ −1 (mod p)` (`40_field.md` R69). -/
theorem two_pow_96 : (2 : ZMod modulus) ^ 96 = -1 := by
  have h := (ZMod.natCast_eq_zero_iff (2 ^ 96 + 1) modulus).mpr (by decide)
  rw [eq_neg_iff_add_eq_zero]
  rwa [Nat.cast_add, Nat.cast_pow, Nat.cast_ofNat, Nat.cast_one] at h

theorem reduceT0_add_reduceT1_toNat_lt (lo hi : Word) :
    (reduceT0 lo hi).toNat + (reduceT1 hi).toNat + eps < 2 ^ 65 := by
  have h0 := (reduceT0 lo hi).isLt
  have h1 := lowHalf_lt hi
  rw [reduceT1_toNat]
  simp only [eps]
  omega

/-- The reduction ends in the addition algorithm, applied to the results of the two subtractions (`40_field.md` R69). -/
theorem reduceWide_eq_fadd (lo hi : Word) : reduceWide lo hi = fadd (reduceT0 lo hi) (reduceT1 hi) :=
  addCanonical_eq_fadd (reduceT0_add_reduceT1_toNat_lt lo hi)

/-- Settles O24: in the field, `hi·2^64 + lo = hh·2^96 + hl·2^64 + lo = (lo − hh) + hl·2^64`. -/
theorem reductionAlgorithmIsFred : Obligations.ReductionAlgorithmIsFred := by
  intro lo hi
  rw [reduceWide_eq_fadd]
  refine eq_of_fieldVal_eq (canonical_fadd _ _) (canonical_fred lo hi) ?_
  rw [fieldVal_fadd, fieldVal_fred, fieldVal_reduceT0, fieldVal_reduceT1, fieldVal_halves hi]
  linear_combination -fieldVal (highHalf hi) * two_pow_96

end Sys2Proof.Machine
end

section
/-! Proofs about the permutation engine: the multiplication chains, the vector functions by their lanes' values in the
field, the seven vector commands, and the canonical, residues-only and injectivity claims (`41_permutation.md`). -/

namespace Sys2Proof.Machine

open Sys2Proof.Safety

/-! ### The multiplication chains -/

section Powers

/-! Two words that hold powers of one field element, and the power their product holds. -/

variable {v : ZMod modulus} {a b : Word} {m n e : Nat}

theorem fieldVal_fmul_of_pow (ha : fieldVal a = v ^ m) (hb : fieldVal b = v ^ n) (he : m + n = e) :
    fieldVal (fmul a b) = v ^ e := by
  rw [fieldVal_fmul, ha, hb, ← pow_add, he]

/-- `k` squarings multiply the exponent by `2^k`, and the tail adds its own (`41_permutation.md` R80). -/
theorem fieldVal_sqmul_of_pow (k : Nat) (ha : fieldVal a = v ^ m) (hb : fieldVal b = v ^ n)
    (he : m * 2 ^ k + n = e) : fieldVal (sqmul a k b) = v ^ e := by
  induction k generalizing a m with
  | zero => exact fieldVal_fmul_of_pow ha hb (by rwa [pow_zero, mul_one] at he)
  | succ k ih => exact ih (fieldVal_fmul_of_pow ha ha rfl) (by rw [← he, pow_succ]; ring)

end Powers

/-! The exponent of `x` in each value of the chain, in binary as the spec tracks it (`41_permutation.md` R80). -/

theorem fieldVal_fmul_self (x : Word) : fieldVal (fmul x x) = fieldVal x ^ 0b10 :=
  fieldVal_fmul_of_pow (pow_one _).symm (pow_one _).symm rfl

theorem fieldVal_pow4 (x : Word) : fieldVal (pow4 x) = fieldVal x ^ 0b100 :=
  fieldVal_fmul_of_pow (fieldVal_fmul_self x) (fieldVal_fmul_self x) rfl

theorem fieldVal_pow7Chain (x : Word) : fieldVal (pow7Chain x) = fieldVal x ^ alpha :=
  fieldVal_fmul_of_pow (fieldVal_fmul_of_pow (fieldVal_pow4 x) (fieldVal_fmul_self x) rfl) (pow_one _).symm rfl

theorem fieldVal_chainT3 (x : Word) : fieldVal (chainT3 x) = fieldVal x ^ 0b100100 :=
  fieldVal_sqmul_of_pow 3 (fieldVal_pow4 x) (fieldVal_pow4 x) rfl

theorem fieldVal_chainT4 (x : Word) : fieldVal (chainT4 x) = fieldVal x ^ 0b100100100100 :=
  fieldVal_sqmul_of_pow 6 (fieldVal_chainT3 x) (fieldVal_chainT3 x) rfl

theorem fieldVal_chainT5 (x : Word) : fieldVal (chainT5 x) = fieldVal x ^ 0b100100100100100100100100 :=
  fieldVal_sqmul_of_pow 12 (fieldVal_chainT4 x) (fieldVal_chainT4 x) rfl

theorem fieldVal_chainT6 (x : Word) : fieldVal (chainT6 x) = fieldVal x ^ 0b100100100100100100100100100100 :=
  fieldVal_sqmul_of_pow 6 (fieldVal_chainT5 x) (fieldVal_chainT3 x) rfl

theorem fieldVal_chainT7 (x : Word) : fieldVal (chainT7 x) =
    fieldVal x ^ 0b1001001001001001001001001001000100100100100100100100100100100 :=
  fieldVal_sqmul_of_pow 31 (fieldVal_chainT6 x) (fieldVal_chainT6 x) rfl

theorem fieldVal_chainA (x : Word) : fieldVal (chainA x) =
    fieldVal x ^ 0b10010010010010010010010010010001101101101101101101101101101100 :=
  fieldVal_fmul_of_pow (fieldVal_fmul_of_pow (fieldVal_chainT7 x) (fieldVal_chainT7 x) rfl) (fieldVal_chainT6 x) rfl

theorem fieldVal_powInvChain (x : Word) : fieldVal (powInvChain x) = fieldVal x ^ invAlpha := by
  have haa := fieldVal_fmul_of_pow (fieldVal_chainA x) (fieldVal_chainA x) rfl
  have hb := fieldVal_fmul_of_pow (fieldVal_fmul_of_pow (fieldVal_fmul_self x) (fieldVal_pow4 x) rfl)
    (pow_one _).symm rfl
  exact fieldVal_fmul_of_pow (fieldVal_fmul_of_pow haa haa rfl) hb rfl

/-- Settles O25: each chain holds the power's exponent, and both its result and the power are canonical. -/
theorem powerChains : Obligations.PowerChains := fun x =>
  ⟨eq_of_fieldVal_eq (canonical_fmul _ _) (canonical_fpow _ _) (by rw [fieldVal_pow7Chain, fieldVal_fpow]),
    eq_of_fieldVal_eq (canonical_fmul _ _) (canonical_fpow _ _) (by rw [fieldVal_powInvChain, fieldVal_fpow])⟩

/-! ### One lane of a vector function -/

@[simp] theorem fieldVal_feltWord (f : Felt) : fieldVal (feltWord f) = (f.val : ZMod modulus) := by
  rw [fieldVal, feltWord_toNat]

/-- A canonical word is the residue of any number with its value in the field. -/
theorem eq_ofNat_mod_of_fieldVal {w : Word} {n : Nat} (hw : Canonical w) (h : fieldVal w = n) :
    w = BitVec.ofNat 64 (n % modulus) :=
  eq_of_fieldVal_eq hw (canonical_of_toNat (toNat_ofNat_mod n))
    (h.trans (fieldVal_eq_natCast (toNat_ofNat_mod n)).symm)

theorem fpow_eq_ofNat (a : Word) (e : Nat) : fpow a e = BitVec.ofNat 64 (a.toNat ^ e % modulus) :=
  eq_ofNat_mod_of_fieldVal (canonical_fpow a e) (by rw [fieldVal_fpow, fieldVal, Nat.cast_pow])

theorem laneIndices_eq_finRange : laneIndices = List.finRange 12 := by decide

/-- An accumulation under `fadd` adds up in the field (`41_permutation.md` R72). -/
theorem fieldVal_foldl_fadd (f : Fin 12 → Word) (l : List (Fin 12)) (acc : Word) :
    fieldVal (l.foldl (fun acc j => fadd acc (f j)) acc) = fieldVal acc + (l.map fun j => fieldVal (f j)).sum := by
  induction l generalizing acc with
  | nil => simp
  | cons j l ih => rw [List.foldl_cons, ih, fieldVal_fadd, List.map_cons, List.sum_cons, add_assoc]

theorem fieldVal_dotRow (row : Vector Felt 12) (x : Lanes) :
    fieldVal (dotRow row x) = ∑ j : Fin 12, ((row[j].val : Nat) : ZMod modulus) * fieldVal x[j] := by
  rw [dotRow, fieldVal_foldl_fadd, laneIndices_eq_finRange, ← Fin.sum_univ_def]
  simp

theorem canonical_dotRow (row : Vector Felt 12) (x : Lanes) : Canonical (dotRow row x) := canonical_fadd _ _

/-- The accumulated lane is the residue of the exact sum (`41_permutation.md` R72). -/
theorem dotRow_eq_ofNat (row : Vector Felt 12) (x : Lanes) :
    dotRow row x = BitVec.ofNat 64 ((∑ j : Fin 12, row[j].val * x[j].toNat) % modulus) :=
  eq_ofNat_mod_of_fieldVal (canonical_dotRow row x) (by rw [fieldVal_dotRow]; push_cast; rfl)

/-! ### The vector functions, lane by lane -/

/-- What both constant injections do with their row of constants (`41_permutation.md` R74, R76). -/
def addRow (row : Vector Felt 12) (x : Lanes) : Lanes := Vector.ofFn fun i : Fin 12 => fadd x[i] (feltWord row[i])

theorem ark1_eq_addRow (t : Tables) (r : Fin 7) (x : Lanes) : ark1 t r x = addRow t.ark1[r] x := rfl

theorem ark2_eq_addRow (t : Tables) (r : Fin 7) (x : Lanes) : ark2 t r x = addRow t.ark2[r] x := rfl

@[simp] theorem getElem_addRow (row : Vector Felt 12) (x : Lanes) {i : Nat} (hi : i < 12) :
    (addRow row x)[i] = fadd x[i] (feltWord row[i]) := by
  simp [addRow]

@[simp] theorem getElem_mds (t : Tables) (x : Lanes) {i : Nat} (hi : i < 12) : (mds t x)[i] = dotRow t.mds[i] x := by
  simp [mds]

theorem mds_eq_ofFn (t : Tables) (x : Lanes) : mds t x = Vector.ofFn fun i : Fin 12 =>
    BitVec.ofNat 64 ((∑ j : Fin 12, t.mds[i][j].val * x[j].toNat) % modulus) := by
  simp only [mds, dotRow_eq_ofNat]

theorem addRow_eq_ofFn (row : Vector Felt 12) (x : Lanes) : addRow row x = Vector.ofFn fun i : Fin 12 =>
    BitVec.ofNat 64 ((x[i].toNat + row[i].val) % modulus) := by
  simp only [addRow, fadd, feltWord_toNat]

theorem sbox_eq_ofFn (x : Lanes) : sbox x = Vector.ofFn fun i : Fin 12 =>
    BitVec.ofNat 64 (x[i].toNat ^ alpha % modulus) := by
  simp only [sbox, fpow_eq_ofNat]

/-- The rounds in their order (`41_permutation.md` R84). -/
theorem permute_eq_rounds (t : Tables) (x : Lanes) : permute t x =
    oneRound t 6 (oneRound t 5 (oneRound t 4 (oneRound t 3 (oneRound t 2 (oneRound t 1 (oneRound t 0 x)))))) := rfl

/-! ### The vector commands -/

section Commands

variable {payload : List Byte} (h : payload.length = 96) (s : State)
include h

theorem withVector_of_length (k : Lanes → Result) : withVector 0 payload s k = k (lanesOf payload) := by
  obtain ⟨-, -, e⟩ | ⟨hne, -⟩ | ⟨-, hne, -⟩ := withVector_cases 0 payload s k
  · exact e
  · exact absurd rfl hne
  · exact absurd h hne

theorem withVectorRound_of_length (r : Fin 7) (k : Fin 7 → Lanes → Result) :
    withVectorRound (BitVec.ofNat 8 r.val) payload s k = k r (lanesOf payload) := by
  have harg : (BitVec.ofNat 8 r.val).toNat = r.val := roundArg_toNat r
  obtain ⟨r', hr, -, e⟩ | ⟨hgt, -⟩ | ⟨-, hne, -⟩ := withVectorRound_cases (BitVec.ofNat 8 r.val) payload s k
  · rw [e, Fin.ext (harg.symm.trans hr)]
  · omega
  · exact absurd h hne

end Commands

/-- Settles O26: every lane is the accumulated row, which is the residue of the exact sum. -/
theorem mdsResult : Obligations.MdsResult := by
  intro s payload h
  rw [← mds_eq_ofFn]
  exact withVector_of_length h s fun x => respondLanes (mds Config.tables x) s

/-- Settles O27: the row of `ARK1` is added lane by lane. -/
theorem ark1Result : Obligations.Ark1Result := by
  intro s r payload h
  rw [← addRow_eq_ofFn]
  exact withVectorRound_of_length h s r fun r x => respondLanes (ark1 Config.tables r x) s

/-- Settles O28: the row of `ARK2` is added lane by lane. -/
theorem ark2Result : Obligations.Ark2Result := by
  intro s r payload h
  rw [← addRow_eq_ofFn]
  exact withVectorRound_of_length h s r fun r x => respondLanes (ark2 Config.tables r x) s

/-- Settles O29: the power function is the residue of the exact seventh power. -/
theorem sboxResult : Obligations.SboxResult := by
  intro s payload h
  rw [← sbox_eq_ofFn]
  exact withVector_of_length h s fun x => respondLanes (sbox x) s

/-- The `d`-th power is a seventh root modulo `p` (`41_permutation.md` R81). -/
theorem fpow_invAlpha_pow_alpha_mod (a : Word) : (fpow a invAlpha).toNat ^ alpha % modulus = a.toNat % modulus := by
  rw [← fpow_toNat, fpow_fpow_invAlpha, residue_toNat]

/-- Settles O30: each lane is the `d`-th power, which is canonical and a seventh root. -/
theorem isboxResult : Obligations.IsboxResult := by
  refine fun s payload h => ⟨isbox (lanesOf payload),
    withVector_of_length h s fun x => respondLanes (isbox x) s, fun i => ?_⟩
  have hlane : (isbox (lanesOf payload))[i] = fpow (lanesOf payload)[i] invAlpha := getElem_isbox _ i.isLt
  rw [hlane]
  exact ⟨canonical_fpow _ _, rfl, fpow_invAlpha_pow_alpha_mod _⟩

/-- Settles O31: the meaning of ROUND is the six steps, once its header is read. -/
theorem roundResult : Obligations.RoundResult := fun s r _ h =>
  withVectorRound_of_length h s r fun r x => respondLanes (oneRound Config.tables r x) s

/-- Settles O32: the meaning of PERM is the seven rounds, once its header is read. -/
theorem permResult : Obligations.PermResult := by
  intro s payload h
  rw [← permute_eq_rounds]
  exact withVector_of_length h s fun x => respondLanes (permute Config.tables x) s

/-! ### Canonical results -/

theorem allCanonical_residues (x : Lanes) : AllCanonical (residues x) := fun i =>
  (getElem_residues x i.isLt).symm ▸ canonical_residue _

theorem allCanonical_mds (t : Tables) (x : Lanes) : AllCanonical (mds t x) := fun i =>
  (getElem_mds t x i.isLt).symm ▸ canonical_dotRow _ _

theorem allCanonical_addRow (row : Vector Felt 12) (x : Lanes) : AllCanonical (addRow row x) := fun i =>
  (getElem_addRow row x i.isLt).symm ▸ canonical_fadd _ _

theorem allCanonical_sbox (x : Lanes) : AllCanonical (sbox x) := fun i =>
  (getElem_sbox x i.isLt).symm ▸ canonical_fpow _ _

/-- Settles O34: every lane is the result of a field function. -/
theorem vectorResultsCanonical : Obligations.VectorResultsCanonical := fun t r x =>
  ⟨allCanonical_mds t x, allCanonical_addRow t.ark1[r] x, allCanonical_addRow t.ark2[r] x, allCanonical_sbox x,
    allCanonical_isbox x, allCanonical_oneRound t r x, allCanonical_permute t x⟩

/-! ### The vector functions in the field -/

/-- The vector of field elements that a vector of words stands for. -/
def laneVals (x : Lanes) : Fin 12 → ZMod modulus := fun i => fieldVal x[i]

/-- A row of constants in the field. -/
def rowVals (row : Vector Felt 12) : Fin 12 → ZMod modulus := fun i => (row[i].val : ZMod modulus)

/-- A table of twelve rows as a matrix over the field. -/
def matrixVals (m : Vector (Vector Felt 12) 12) : Matrix (Fin 12) (Fin 12) (ZMod modulus) :=
  Matrix.of fun i => rowVals m[i]

/-- A vector of canonical words is determined by its values in the field. -/
theorem eq_of_laneVals_eq {x y : Lanes} (hx : AllCanonical x) (hy : AllCanonical y)
    (h : laneVals x = laneVals y) : x = y :=
  Vector.ext fun i hi => eq_of_fieldVal_eq (hx ⟨i, hi⟩) (hy ⟨i, hi⟩) (congrFun h ⟨i, hi⟩)

@[simp] theorem laneVals_residues (x : Lanes) : laneVals (residues x) = laneVals x :=
  funext fun i => by simp [laneVals]

@[simp] theorem laneVals_mds (t : Tables) (x : Lanes) :
    laneVals (mds t x) = (matrixVals t.mds).mulVec (laneVals x) :=
  funext fun i => (congrArg fieldVal (getElem_mds t x i.isLt)).trans (fieldVal_dotRow t.mds[i] x)

@[simp] theorem laneVals_addRow (row : Vector Felt 12) (x : Lanes) :
    laneVals (addRow row x) = laneVals x + rowVals row :=
  funext fun i => by simp [laneVals, rowVals]

@[simp] theorem laneVals_sbox (x : Lanes) : laneVals (sbox x) = laneVals x ^ alpha :=
  funext fun i => by simp [laneVals]

@[simp] theorem laneVals_isbox (x : Lanes) : laneVals (isbox x) = laneVals x ^ invAlpha :=
  funext fun i => by simp [laneVals]

/-! ### Residues only -/

theorem mds_residues (t : Tables) (x : Lanes) : mds t (residues x) = mds t x :=
  eq_of_laneVals_eq (allCanonical_mds _ _) (allCanonical_mds _ _) (by simp)

theorem addRow_residues (row : Vector Felt 12) (x : Lanes) : addRow row (residues x) = addRow row x :=
  eq_of_laneVals_eq (allCanonical_addRow _ _) (allCanonical_addRow _ _) (by simp)

theorem sbox_residues (x : Lanes) : sbox (residues x) = sbox x :=
  eq_of_laneVals_eq (allCanonical_sbox _) (allCanonical_sbox _) (by simp)

theorem isbox_residues (x : Lanes) : isbox (residues x) = isbox x :=
  eq_of_laneVals_eq (allCanonical_isbox _) (allCanonical_isbox _) (by simp)

/-- A round begins with the linear mix. -/
theorem oneRound_residues (t : Tables) (r : Fin 7) (x : Lanes) : oneRound t r (residues x) = oneRound t r x := by
  rw [oneRound, oneRound, mds_residues]

theorem permute_residues (t : Tables) (x : Lanes) : permute t (residues x) = permute t x := by
  rw [permute_eq_rounds, permute_eq_rounds, oneRound_residues]

/-- Settles O35: both sides are canonical and have the same values in the field. -/
theorem vectorResiduesOnly : Obligations.VectorResiduesOnly := fun t r x =>
  ⟨mds_residues t x, addRow_residues t.ark1[r] x, addRow_residues t.ark2[r] x, sbox_residues x, isbox_residues x,
    oneRound_residues t r x, permute_residues t x⟩

/-! ### Injectivity -/

/-- The hypothesis of R86 on the table, in the field. -/
theorem matrixVals_mul_eq_one {n m : Vector (Vector Felt 12) 12}
    (h : ∀ i j : Fin 12, (∑ k : Fin 12, n[i][k].val * m[k][j].val) % modulus = if i = j then 1 else 0) :
    matrixVals n * matrixVals m = 1 := by
  ext i j
  calc (matrixVals n * matrixVals m) i j
      = ((∑ k : Fin 12, n[i][k].val * m[k][j].val : Nat) : ZMod modulus) := by
        rw [Matrix.mul_apply]; push_cast; rfl
    _ = ((if i = j then 1 else 0 : Nat) : ZMod modulus) := by rw [← h i j, ZMod.natCast_mod]
    _ = (1 : Matrix (Fin 12) (Fin 12) (ZMod modulus)) i j := by rw [Matrix.one_apply]; push_cast; rfl

theorem mulVec_injective_of_mul_eq_one {n m : Matrix (Fin 12) (Fin 12) (ZMod modulus)} (h : n * m = 1) :
    Function.Injective m.mulVec :=
  Function.LeftInverse.injective (g := n.mulVec) fun v => by rw [Matrix.mulVec_mulVec, h, Matrix.one_mulVec]

theorem lanes_pow_alpha_mul_invAlpha (v : Fin 12 → ZMod modulus) : v ^ (alpha * invAlpha) = v :=
  funext fun i => pow_alpha_mul_invAlpha (v i)

theorem lanes_pow_alpha_injective : Function.Injective fun v : Fin 12 → ZMod modulus => v ^ alpha :=
  Function.LeftInverse.injective (g := fun v => v ^ invAlpha) fun v =>
    (pow_mul v alpha invAlpha).symm.trans (lanes_pow_alpha_mul_invAlpha v)

theorem lanes_pow_invAlpha_injective : Function.Injective fun v : Fin 12 → ZMod modulus => v ^ invAlpha :=
  Function.LeftInverse.injective (g := fun v => v ^ alpha) fun v =>
    (pow_mul' v alpha invAlpha).symm.trans (lanes_pow_alpha_mul_invAlpha v)

section Injective

variable {t : Tables} (ht : Function.Injective (matrixVals t.mds).mulVec)
include ht

/-- Each of the six steps of a round is injective in the field (`41_permutation.md` R86). -/
theorem laneVals_eq_of_oneRound {r : Fin 7} {x y : Lanes}
    (h : laneVals (oneRound t r x) = laneVals (oneRound t r y)) : laneVals x = laneVals y := by
  simp only [oneRound, ark1_eq_addRow, ark2_eq_addRow, laneVals_isbox, laneVals_addRow, laneVals_mds,
    laneVals_sbox] at h
  exact ht (add_right_cancel (lanes_pow_alpha_injective (ht (add_right_cancel (lanes_pow_invAlpha_injective h)))))

theorem laneVals_eq_of_rounds {l : List (Fin 7)} {x y : Lanes}
    (h : laneVals (l.foldl (fun z r => oneRound t r z) x) = laneVals (l.foldl (fun z r => oneRound t r z) y)) :
    laneVals x = laneVals y := by
  induction l generalizing x y with
  | nil => exact h
  | cons r l ih => exact laneVals_eq_of_oneRound ht (ih h)

end Injective

/-- Settles O36: with a left inverse the linear mix is injective in the field, so every round is, and canonical vectors
are determined by their values there. -/
theorem permuteInjectiveIfMdsInvertible : Obligations.PermuteInjectiveIfMdsInvertible := by
  intro t n hn x y hx hy h
  have hmds := mulVec_injective_of_mul_eq_one (matrixVals_mul_eq_one hn)
  exact eq_of_laneVals_eq hx hy (laneVals_eq_of_rounds hmds (congrArg laneVals h))

end Sys2Proof.Machine
end

section
/-! Proofs about the sponge state machine: INJECT's loop as the absorbing of one byte after another, EXTRACT's loop as
the squeezing of one byte after another, and the statements about INIT, INJECT, FLIP, EXTRACT and whole sessions
(`42_sponge.md`). -/

namespace Sys2Proof.Machine

open Sys2Proof.Safety

/-! ### Writing bytes at the cursor -/

/-- The vector that `MemWrite` makes of `x` where the bytes fit (`00_scope.md` section 5). -/
def overwrite (x : Lanes) (addr : Nat) (v : List Byte) : Lanes :=
  lanesOf ((bufOf x).take addr ++ v ++ (bufOf x).drop (addr + v.length))

theorem memWrite_eq_overwrite (x : Lanes) {addr : Nat} {v : List Byte} (h : addr + v.length ≤ 96) :
    memWrite x addr v = some (overwrite x addr v) := if_pos h

theorem bufOf_overwrite (x : Lanes) {addr : Nat} {v : List Byte} (h : addr + v.length ≤ 96) :
    bufOf (overwrite x addr v) = (bufOf x).take addr ++ v ++ (bufOf x).drop (addr + v.length) :=
  (bufOf_memWrite (memWrite_eq_overwrite x h)).2

@[simp] theorem overwrite_nil (x : Lanes) (addr : Nat) : overwrite x addr [] = x := by
  simp [overwrite]

/-- A write that ends with the buffer drops everything after the written bytes. -/
theorem overwrite_to_end (x : Lanes) {addr : Nat} {v : List Byte} (h : addr + v.length = 96) :
    overwrite x addr v = lanesOf ((bufOf x).take addr ++ v) := by
  rw [overwrite, List.drop_of_length_le (by rw [bufOf_length, h]), List.append_nil]

/-- Two writes side by side are one write. -/
theorem overwrite_overwrite (x : Lanes) {addr : Nat} {u v : List Byte} (h : addr + u.length + v.length ≤ 96) :
    overwrite (overwrite x addr u) (addr + u.length) v = overwrite x addr (u ++ v) := by
  have hlen : ((bufOf x).take addr ++ u).length = addr + u.length := by simp; omega
  rw [overwrite, bufOf_overwrite x (by omega), List.take_left' hlen, ← List.drop_drop, List.drop_left' hlen,
    List.drop_drop, overwrite, List.length_append, List.append_assoc _ u v, Nat.add_assoc]

/-- The context with `v` written at the cursor and the cursor moved past it. -/
def writeBytes (v : List Byte) (c : Context) : Context :=
  moveCursor v.length { c with words := overwrite c.words c.dptr.toNat v }

@[simp] theorem moveCursor_zero (c : Context) : moveCursor 0 c = c := by
  simp [moveCursor]

theorem moveCursor_moveCursor {m n : Nat} {c : Context} (h : c.dptr.toNat + m ≤ 96) :
    moveCursor n (moveCursor m c) = moveCursor (m + n) c := by
  rw [moveCursor, moveCursor_dptr h, Nat.add_assoc]
  rfl

@[simp] theorem writeBytes_phase (v : List Byte) (c : Context) : (writeBytes v c).phase = c.phase := rfl

theorem writeBytes_dptr {v : List Byte} {c : Context} (h : c.dptr.toNat + v.length ≤ 96) :
    (writeBytes v c).dptr.toNat = c.dptr.toNat + v.length :=
  moveCursor_dptr (c := { c with words := overwrite c.words c.dptr.toNat v }) h

@[simp] theorem writeBytes_nil (c : Context) : writeBytes [] c = c := by
  simp [writeBytes]

theorem writeBytes_writeBytes {u v : List Byte} {c : Context} (h : c.dptr.toNat + u.length + v.length ≤ 96) :
    writeBytes v (writeBytes u c) = writeBytes (u ++ v) c := by
  have hu := writeBytes_dptr (v := u) (c := c) (by omega)
  simp only [writeBytes, moveCursor] at hu ⊢
  rw [hu, overwrite_overwrite _ h, List.length_append, Nat.add_assoc]

/-! ### The permutation at cursor 96 -/

theorem refill_of_lt {t : Tables} {c : Context} (h : c.dptr.toNat < 96) : refill t c = c :=
  if_neg (Nat.ne_of_lt h)

theorem refill_of_full {t : Tables} {c : Context} (h : c.dptr.toNat = 96) : refill t c = permuteCtx t c := if_pos h

theorem refill_dptr_lt {t : Tables} {c : Context} (h : c.dptr.toNat ≤ 96) : (refill t c).dptr.toNat < 96 := by
  obtain hlt | heq := Nat.lt_or_eq_of_le h
  · rwa [refill_of_lt hlt]
  · simp [refill_of_full heq]

@[simp] theorem refill_refill (t : Tables) (c : Context) : refill t (refill t c) = refill t c := by
  by_cases h : c.dptr.toNat = 96
  · rw [refill_of_full h, refill_of_lt (by simp)]
  · simp [refill, h]

/-! ### INJECT's loop, byte by byte -/

/-- One byte absorbed: at the cursor, with the permutation as soon as the window is full (`42_sponge.md` R89). The
first `refill` matters at cursor 96 only, which no run has in `ABSORBING`. -/
def absorbByte (t : Tables) (c : Context) (b : Byte) : Context := refill t (writeBytes [b] (refill t c))

@[simp] theorem absorbByte_refill (t : Tables) (c : Context) (b : Byte) :
    absorbByte t (refill t c) b = absorbByte t c b := by
  simp [absorbByte]

@[simp] theorem absorbByte_phase (t : Tables) (c : Context) (b : Byte) : (absorbByte t c b).phase = c.phase := by
  simp [absorbByte]

theorem absorbByte_of_lt {t : Tables} {c : Context} (h : c.dptr.toNat < 96) (b : Byte) :
    absorbByte t c b = refill t (writeBytes [b] c) := by
  rw [absorbByte, refill_of_lt h]

theorem absorbByte_dptr_lt {t : Tables} {c : Context} (h : c.dptr.toNat ≤ 96) (b : Byte) :
    (absorbByte t c b).dptr.toNat < 96 := by
  have hlt := refill_dptr_lt (t := t) h
  exact refill_dptr_lt (writeBytes_dptr (v := [b]) hlt ▸ hlt)

/-- Bytes that stay in the window are one write, with the permutation at its end if they fill it. -/
theorem foldl_absorbByte_window {t : Tables} {c : Context} (hc : c.dptr.toNat < 96) {v : List Byte}
    (h : c.dptr.toNat + v.length ≤ 96) : v.foldl (absorbByte t) c = refill t (writeBytes v c) := by
  induction v using List.reverseRecOn with
  | nil => simp [refill_of_lt hc]
  | append_singleton v b ih =>
    rw [List.length_append, List.length_singleton] at h
    have hlt : (writeBytes v c).dptr.toNat < 96 := by rw [writeBytes_dptr (by omega)]; omega
    rw [List.foldl_append, ih (by omega), List.foldl_cons, List.foldl_nil, absorbByte_refill, absorbByte_of_lt hlt,
      writeBytes_writeBytes (by rw [List.length_singleton]; omega)]

theorem foldl_absorbByte_phase (t : Tables) (data : List Byte) (c : Context) :
    (data.foldl (absorbByte t) c).phase = c.phase := by
  induction data generalizing c with
  | nil => rfl
  | cons b bs ih => rw [List.foldl_cons, ih, absorbByte_phase]

theorem foldl_absorbByte_dptr_le {t : Tables} {data : List Byte} {c : Context} (h : c.dptr.toNat ≤ 96) :
    (data.foldl (absorbByte t) c).dptr.toNat ≤ 96 := by
  induction data generalizing c with
  | nil => exact h
  | cons b bs ih => exact ih (absorbByte_dptr_lt h b).le

theorem chunk_pos {n : Nat} {c : Context} (hn : 0 < n) (hc : c.dptr.toNat < 96) : 0 < chunk n c := by
  simp only [chunk, rateEnd]
  omega

/-- One iteration of INJECT's loop is a write at the cursor, with the permutation if it fills the window. -/
theorem absorbChunk_eq_refill {t : Tables} {n : Nat} {c : Context} {v : List Byte} (hc : c.dptr.toNat ≤ 96)
    (hv : v.length = chunk n c) :
    absorbChunk t n c (overwrite c.words c.dptr.toNat v) = refill t (writeBytes v c) := by
  have hd := writeBytes_dptr (v := v) (c := c) (hv ▸ chunk_fits hc)
  rw [absorbChunk, refill, hd, ← hv]
  rfl

theorem absorbLoop_eq_foldl {t : Tables} {fuel : Nat} {data : List Byte} {c : Context} (hc : c.dptr.toNat < 96)
    (hfuel : data.length ≤ fuel) : absorbLoop t fuel data c = some (data.foldl (absorbByte t) c) := by
  induction fuel generalizing data c with
  | zero =>
    obtain rfl := List.length_eq_zero_iff.mp (Nat.le_zero.mp hfuel)
    rfl
  | succ fuel ih =>
    cases data with
    | nil => rfl
    | cons b bs =>
      have hlen : ((b :: bs).take (chunk (bs.length + 1) c)).length = chunk (bs.length + 1) c :=
        List.length_take_of_le (chunk_le _ _)
      have hfit : c.dptr.toNat + ((b :: bs).take (chunk (bs.length + 1) c)).length ≤ 96 := by
        rw [hlen]
        exact chunk_fits hc.le
      have hrest : ((b :: bs).drop (chunk (bs.length + 1) c)).length ≤ fuel := by
        have hpos : 0 < chunk (bs.length + 1) c := chunk_pos (Nat.succ_pos _) hc
        rw [List.length_cons] at hfuel
        rw [List.length_drop, List.length_cons]
        omega
      rw [absorbLoop_cons, memWrite_eq_overwrite _ hfit, Option.bind_some, absorbChunk_eq_refill hc.le hlen,
        ih (refill_dptr_lt (writeBytes_dptr hfit ▸ hfit)) hrest, ← foldl_absorbByte_window hc hfit,
        ← List.foldl_append, List.take_append_drop]

/-- An iteration at cursor 96 has no room, writes nothing and permutes. -/
theorem absorbLoop_of_full {t : Tables} {c : Context} (hc : c.dptr.toNat = 96) (fuel : Nat) (b : Byte)
    (bs : List Byte) : absorbLoop t (fuel + 1) (b :: bs) c = absorbLoop t fuel (b :: bs) (refill t c) := by
  have hroom : chunk (bs.length + 1) c = 0 := by simp [chunk, hc]
  have h := absorbChunk_eq_refill (t := t) (n := bs.length + 1) (v := []) hc.le hroom.symm
  rw [overwrite_nil, writeBytes_nil] at h
  rw [absorbLoop_cons, hroom, List.take_zero, List.drop_zero, memWrite_nil _ hc.le, Option.bind_some, h]

/-- Absorbing is absorbing one byte after another (`42_sponge.md` R90). -/
theorem absorb_eq_foldl {t : Tables} {c : Context} (hc : c.dptr.toNat ≤ 96) (data : List Byte) :
    absorb t data c = some (data.foldl (absorbByte t) c) := by
  obtain hlt | heq := Nat.lt_or_eq_of_le hc
  · exact absorbLoop_eq_foldl hlt (Nat.le_succ _)
  · cases data with
    | nil => rfl
    | cons b bs =>
      rw [absorb, absorbLoop_of_full heq, absorbLoop_eq_foldl (refill_dptr_lt hc) le_rfl, List.foldl_cons,
        List.foldl_cons, absorbByte_refill]

/-! ### EXTRACT's loop, byte by byte -/

/-- The byte squeezed next (`42_sponge.md` R92). -/
def squeezedByte (t : Tables) (c : Context) : Byte := (bufOf (refill t c).words).getD (refill t c).dptr.toNat 0

/-- The context after one byte has been squeezed (`42_sponge.md` R92). -/
def squeezeNext (t : Tables) (c : Context) : Context := moveCursor 1 (refill t c)

/-- The next `n` bytes squeezed. -/
def squeezeOut (t : Tables) (n : Nat) (c : Context) : List Byte :=
  (List.range n).map fun k => squeezedByte t ((squeezeNext t)^[k] c)

@[simp] theorem squeezeOut_length (t : Tables) (n : Nat) (c : Context) : (squeezeOut t n c).length = n := by
  simp [squeezeOut]

theorem squeezeOut_add (t : Tables) (m n : Nat) (c : Context) :
    squeezeOut t (m + n) c = squeezeOut t m c ++ squeezeOut t n ((squeezeNext t)^[m] c) := by
  simp only [squeezeOut, List.range_add, List.map_append, List.map_map]
  congr 2
  funext k
  rw [Function.comp_apply, Nat.add_comm, Function.iterate_add_apply]

theorem squeezeNext_dptr {t : Tables} {c : Context} (h : c.dptr.toNat ≤ 96) :
    (squeezeNext t c).dptr.toNat = (refill t c).dptr.toNat + 1 :=
  moveCursor_dptr (refill_dptr_lt h)

theorem iterate_squeezeNext_phase (t : Tables) (n : Nat) (c : Context) :
    ((squeezeNext t)^[n] c).phase = c.phase := by
  induction n generalizing c with
  | zero => rfl
  | succ n ih => rw [Function.iterate_succ_apply, ih, squeezeNext, moveCursor_phase, refill_phase]

theorem iterate_squeezeNext_dptr_le {t : Tables} {n : Nat} {c : Context} (h : c.dptr.toNat ≤ 96) :
    ((squeezeNext t)^[n] c).dptr.toNat ≤ 96 := by
  induction n generalizing c with
  | zero => exact h
  | succ n ih => exact ih (squeezeNext_dptr h ▸ refill_dptr_lt h)

theorem iterate_squeezeNext_refill {t : Tables} {n : Nat} (hn : 0 < n) (c : Context) :
    (squeezeNext t)^[n] (refill t c) = (squeezeNext t)^[n] c := by
  obtain ⟨n, rfl⟩ := Nat.exists_eq_add_one_of_ne_zero hn.ne'
  simp [Function.iterate_succ_apply, squeezeNext]

/-- The permutation at cursor 96 is the first thing the next byte runs, so running it before changes no output. -/
theorem squeezeOut_refill (t : Tables) (n : Nat) (c : Context) : squeezeOut t n (refill t c) = squeezeOut t n c := by
  refine List.map_congr_left fun k _ => ?_
  cases k with
  | zero => simp [squeezedByte]
  | succ k => rw [iterate_squeezeNext_refill k.succ_pos]

/-- Inside a window the cursor moves and no permutation runs. -/
theorem iterate_squeezeNext_window {t : Tables} {n : Nat} {c : Context} (h : c.dptr.toNat + n ≤ 96) :
    (squeezeNext t)^[n] c = moveCursor n c := by
  induction n with
  | zero => simp
  | succ n ih =>
    have hlt : (moveCursor n c).dptr.toNat < 96 := by rw [moveCursor_dptr (by omega)]; omega
    rw [Function.iterate_succ_apply', ih (by omega), squeezeNext, refill_of_lt hlt, moveCursor_moveCursor (by omega)]

/-- Inside a window the bytes squeezed are those at the cursor. -/
theorem squeezeOut_window {t : Tables} {n : Nat} {c : Context} (h : c.dptr.toNat + n ≤ 96) :
    squeezeOut t n c = ((bufOf c.words).drop c.dptr.toNat).take n := by
  refine List.ext_getElem (by simp; omega) fun k hk _ => ?_
  rw [squeezeOut_length] at hk
  have hd : (moveCursor k c).dptr.toNat = c.dptr.toNat + k := moveCursor_dptr (by omega)
  have hbyte : squeezedByte t (moveCursor k c) = (bufOf c.words).getD (c.dptr.toNat + k) 0 := by
    rw [squeezedByte, refill_of_lt (by omega), hd, moveCursor_words]
  simp only [squeezeOut, List.getElem_map, List.getElem_range, List.getElem_take, List.getElem_drop]
  rw [iterate_squeezeNext_window (by omega), hbyte, List.getD_eq_getElem _ _ (by rw [bufOf_length]; omega)]

theorem squeezeLoop_eq {t : Tables} {fuel n : Nat} {c : Context} (hc : c.dptr.toNat ≤ 96) (hfuel : n ≤ fuel) :
    squeezeLoop t fuel n c = some (squeezeOut t n c, (squeezeNext t)^[n] c) := by
  induction fuel generalizing n c with
  | zero =>
    obtain rfl := Nat.le_zero.mp hfuel
    rfl
  | succ fuel ih =>
    cases n with
    | zero => rfl
    | succ n =>
      have hlt := refill_dptr_lt (t := t) hc
      have hfit : (refill t c).dptr.toNat + chunk (n + 1) (refill t c) ≤ 96 := chunk_fits hlt.le
      have hpos : 0 < chunk (n + 1) (refill t c) := chunk_pos (Nat.succ_pos n) hlt
      have hsum : chunk (n + 1) (refill t c) + (n + 1 - chunk (n + 1) (refill t c)) = n + 1 :=
        Nat.add_sub_of_le (chunk_le _ _)
      rw [squeezeLoop_succ, memRead_eq_some hfit, Option.bind_some, squeezeChunk, ← iterate_squeezeNext_window hfit,
        ← squeezeOut_window hfit, ih (iterate_squeezeNext_dptr_le hlt.le) (by omega), Option.map_some,
        ← squeezeOut_add, ← Function.iterate_add_apply, hsum, Nat.add_comm (n + 1 - _), hsum, squeezeOut_refill,
        iterate_squeezeNext_refill n.succ_pos]

/-- Squeezing is squeezing one byte after another (`42_sponge.md` R93). -/
theorem squeeze_eq {t : Tables} {c : Context} (hc : c.dptr.toNat ≤ 96) (n : Nat) :
    squeeze t n c = some (squeezeOut t n c, (squeezeNext t)^[n] c) :=
  squeezeLoop_eq hc (Nat.le_succ n)

/-! ### The four sponge commands -/

theorem withNone_of_arg_ne {arg : Byte} (h : arg ≠ 0) (payload : List Byte) (s : State) (k : Result) :
    withNone arg payload s k = raise .illegalOperand s := if_neg h

theorem withNone_of_payload_ne {payload : List Byte} (h : payload ≠ []) (s : State) (k : Result) :
    withNone 0 payload s k = raise .badLength s := if_neg fun hlen => h (List.length_eq_zero_iff.mp hlen)

theorem withPhase_of_eq {need : Phase} {s : State} (h : s.ctx.phase = need) (k : Result) :
    withPhase need s k = k := if_pos h

theorem exec_flip_of_absorbing {s : State} (hph : s.ctx.phase = .absorbing) :
    exec (.flip 0 []) s = .next (emit ⟨.ok, []⟩ (setCtx (flipContext s.ctx) s)) := by
  rw [exec_flip_zero, withPhase_of_eq hph, respond]

theorem exec_inject_of_absorbing {s : State} (hph : s.ctx.phase = .absorbing) (hc : s.ctx.dptr.toNat ≤ 96)
    (data : List Byte) : exec (.inject 0 data) s =
      .next (emit ⟨.ok, []⟩ (setCtx (data.foldl (absorbByte Config.tables) s.ctx) s)) := by
  rw [exec_inject_zero, withPhase_of_eq hph, absorb_eq_foldl hc, finishAbsorb, respond]

theorem exec_extract_of_squeezing {s : State} (hph : s.ctx.phase = .squeezing) (hc : s.ctx.dptr.toNat ≤ 96)
    (n : BitVec 16) : exec (.extract 0 n) s =
      .next (emit ⟨.ok, squeezeOut Config.tables n.toNat s.ctx⟩
        (setCtx ((squeezeNext Config.tables)^[n.toNat] s.ctx) s)) := by
  rw [exec_extract_zero, withPhase_of_eq hph, squeeze_eq hc, finishSqueeze, respond]

/-! ### The statements about INIT and FLIP -/

/-- Settles O38: the header checks of INIT, one clause for each answer. -/
theorem initResult : Obligations.InitResult := by
  refine fun s arg payload => ⟨?_, fun harg => withNone_of_arg_ne harg _ s _, ?_⟩
  · rintro rfl rfl
    rfl
  · rintro rfl hpayload
    exact withNone_of_payload_ne hpayload s _

/-- Settles O39: the header checks of FLIP, then its phase check. -/
theorem flipResult : Obligations.FlipResult := by
  refine fun s arg payload => ⟨?_, fun harg => withNone_of_arg_ne harg _ s _, ?_, ?_⟩
  · rintro rfl rfl hph
    exact exec_flip_of_absorbing hph
  · rintro rfl hpayload
    exact withNone_of_payload_ne hpayload s _
  · rintro rfl rfl hph
    exact withPhase_of_ne hph _

/-! ### The statements about INJECT -/

/-- Settles O40: the bytes are one write, which leaves the cursor below 96. -/
theorem injectWithinWindow : Obligations.InjectWithinWindow := by
  intro s data hph h
  have hexec := exec_inject_of_absorbing hph (by omega) data
  rw [foldl_absorbByte_window (by omega) h.le, refill_of_lt (by rwa [writeBytes_dptr h.le])] at hexec
  refine ⟨overwrite s.ctx.words s.ctx.dptr.toNat data, ?_, bufByte_memWrite (memWrite_eq_overwrite _ h.le)⟩
  rw [hexec, ← hph]
  rfl

/-- Settles O41: the bytes are one write that ends with the buffer, followed by the permutation. -/
theorem injectFillsWindow : Obligations.InjectFillsWindow := by
  intro s data hph hne h
  have hpos := List.length_pos_iff.mpr hne
  rw [exec_inject_of_absorbing hph (by omega), foldl_absorbByte_window (by omega) h.le,
    refill_of_full (by rwa [writeBytes_dptr h.le]), ← overwrite_to_end _ h, ← hph]
  rfl

/-- One byte moves the cursor by one, from 95 to 32. -/
theorem absorbByte_dptr {t : Tables} {c : Context} (hlow : 32 ≤ c.dptr.toNat) (hhigh : c.dptr.toNat ≤ 95)
    (b : Byte) : (absorbByte t c b).dptr.toNat = 32 + (c.dptr.toNat - 32 + 1) % 64 := by
  have hd : (writeBytes [b] c).dptr.toNat = c.dptr.toNat + 1 := writeBytes_dptr (by simp; omega)
  rw [absorbByte_of_lt (by omega)]
  by_cases hfull : c.dptr.toNat = 95
  · rw [refill_of_full (by omega)]
    simp [hfull]
  · rw [refill_of_lt (by omega)]
    omega

theorem foldl_absorbByte_dptr {t : Tables} {c : Context} (hlow : 32 ≤ c.dptr.toNat) (hhigh : c.dptr.toNat ≤ 95)
    (data : List Byte) :
    (data.foldl (absorbByte t) c).dptr.toNat = 32 + (c.dptr.toNat - 32 + data.length) % 64 := by
  induction data generalizing c with
  | nil => simp only [List.foldl_nil, List.length_nil]; omega
  | cons b bs ih =>
    have hb := absorbByte_dptr (t := t) hlow hhigh b
    rw [List.foldl_cons, ih (by omega) (by omega), List.length_cons]
    omega

/-- Settles O42: the cursor byte by byte. -/
theorem injectCursor : Obligations.InjectCursor := by
  intro s data hph hlow hhigh
  have hd := foldl_absorbByte_dptr (t := Config.tables) hlow hhigh data
  have hp := (foldl_absorbByte_phase Config.tables data s.ctx).trans hph
  refine ⟨(data.foldl (absorbByte Config.tables) s.ctx).words, ?_⟩
  rw [exec_inject_of_absorbing hph (by omega), ← hd, BitVec.ofNat_toNat, BitVec.setWidth_eq, ← hp]
  rfl

/-- Settles O43: absorbing byte by byte does not see where one payload ends. -/
theorem injectComposes : Obligations.InjectComposes := by
  intro s a b hph hc
  refine ⟨_, _, _, exec_inject_of_absorbing hph hc a, exec_inject_of_absorbing ?_ ?_ b,
    exec_inject_of_absorbing hph hc (a ++ b), ?_⟩
  · exact (foldl_absorbByte_phase _ a _).trans hph
  · exact foldl_absorbByte_dptr_le hc
  · exact List.foldl_append

/-! ### The statements about EXTRACT -/

/-- Settles O44: inside a window the bytes are those at the cursor and only the cursor moves. -/
theorem extractWithinWindow : Obligations.ExtractWithinWindow := by
  intro s n hph h
  rw [exec_extract_of_squeezing hph (by omega), squeezeOut_window h, iterate_squeezeNext_window h, ← hph]
  rfl

/-- Settles O45: the permutation runs, and the bytes are then inside the new window. -/
theorem extractPermutesFirst : Obligations.ExtractPermutesFirst := by
  intro s n hph hd hpos hle
  have hfull : s.ctx.dptr.toNat = 96 := by rw [hd]; rfl
  have hfit : (permuteCtx Config.tables s.ctx).dptr.toNat + n.toNat ≤ 96 := Nat.add_le_add_left hle 32
  rw [exec_extract_of_squeezing hph hfull.le, ← squeezeOut_refill, ← iterate_squeezeNext_refill hpos,
    refill_of_full hfull, squeezeOut_window hfit, iterate_squeezeNext_window hfit, ← hph]
  rfl

/-- Settles O46: squeezing byte by byte does not see where one output ends. -/
theorem extractStreams : Obligations.ExtractStreams := by
  intro s n m k hph hc hk
  refine ⟨_, _, _, _, _, exec_extract_of_squeezing hph hc n, rfl, exec_extract_of_squeezing ?_ ?_ m, rfl,
    exec_extract_of_squeezing hph hc k, ?_, ?_⟩
  · exact (iterate_squeezeNext_phase _ _ _).trans hph
  · exact iterate_squeezeNext_dptr_le hc
  · rw [hk, squeezeOut_add]
    rfl
  · rw [hk, Nat.add_comm, emit_ctx, setCtx_ctx, Function.iterate_add_apply]
    rfl

/-- One byte moves the cursor by one, from 96 to 33. -/
theorem squeezeNext_dptr_mod {t : Tables} {c : Context} (hlow : 32 ≤ c.dptr.toNat) (hhigh : c.dptr.toNat ≤ 96) :
    (squeezeNext t c).dptr.toNat = 33 + (c.dptr.toNat + 1 - 33) % 64 := by
  rw [squeezeNext_dptr hhigh]
  by_cases hfull : c.dptr.toNat = 96
  · simp [refill_of_full hfull, hfull]
  · rw [refill_of_lt (by omega)]
    omega

theorem iterate_squeezeNext_dptr_mod {t : Tables} {n : Nat} (hn : 0 < n) {c : Context} (hlow : 32 ≤ c.dptr.toNat)
    (hhigh : c.dptr.toNat ≤ 96) : ((squeezeNext t)^[n] c).dptr.toNat = 33 + (c.dptr.toNat + n - 33) % 64 := by
  induction n, hn using Nat.le_induction generalizing c with
  | base => exact squeezeNext_dptr_mod hlow hhigh
  | succ n hn ih =>
    have hd := squeezeNext_dptr_mod (t := t) hlow hhigh
    rw [Function.iterate_succ_apply, ih (by omega) (by omega)]
    omega

/-- Settles O47: the cursor byte by byte. -/
theorem extractCursor : Obligations.ExtractCursor := fun _ n hph hlow hhigh hpos =>
  ⟨_, exec_extract_of_squeezing hph hhigh n, (iterate_squeezeNext_phase _ _ _).trans hph,
    iterate_squeezeNext_dptr_mod hpos hlow hhigh⟩

/-- Where byte `k` after cursor 96 is read: in window `k / 64`, at place `k mod 64` (`42_sponge.md` R93). -/
theorem refill_iterate_squeezeNext {t : Tables} {c : Context} (hc : c.dptr.toNat = 96) (k : Nat) :
    (refill t ((squeezeNext t)^[k] c)).words = (permute t)^[k / 64 + 1] c.words ∧
    (refill t ((squeezeNext t)^[k] c)).dptr.toNat = 32 + k % 64 := by
  induction k with
  | zero => simp [refill_of_full hc]
  | succ k ih =>
    obtain ⟨hwords, hd⟩ := ih
    have hnext : ((squeezeNext t)^[k + 1] c).dptr.toNat = 33 + k % 64 := by
      rw [Function.iterate_succ_apply', squeezeNext, moveCursor_dptr (by omega)]
      omega
    have hnextWords : ((squeezeNext t)^[k + 1] c).words = (permute t)^[k / 64 + 1] c.words := by
      rw [Function.iterate_succ_apply', squeezeNext, moveCursor_words, hwords]
    by_cases hfull : k % 64 = 63
    · have hdiv : (k + 1) / 64 = k / 64 + 1 := by omega
      have hmod : (k + 1) % 64 = 0 := by omega
      rw [refill_of_full (by omega), permuteCtx_words, hnextWords, hdiv, hmod,
        ← Function.iterate_succ_apply' (permute t)]
      exact ⟨rfl, rfl⟩
    · have hdiv : (k + 1) / 64 = k / 64 := by omega
      rw [refill_of_lt (by omega), hdiv]
      exact ⟨hnextWords, by omega⟩

theorem squeezeOut_eq_stream {t : Tables} {c : Context} (hc : c.dptr.toNat = 96) (n : Nat) :
    squeezeOut t n c = stream t c.words n := by
  refine List.map_congr_left fun k _ => ?_
  obtain ⟨hwords, hd⟩ := refill_iterate_squeezeNext (t := t) hc k
  rw [squeezedByte, hwords, hd, streamByte]

/-- Settles O48: each byte squeezed is the stream's. -/
theorem extractIsTheStream : Obligations.ExtractIsTheStream := by
  intro s n hph hd
  have hfull : s.ctx.dptr.toNat = 96 := by rw [hd]; rfl
  refine ⟨_, exec_extract_of_squeezing hph hfull.le n, ?_⟩
  rw [squeezeOut_eq_stream hfull]
  rfl

/-! ### Whole sessions -/

theorem execAll_cons_next {i : Instr} {s t : State} (h : exec i s = .next t) (is : List Instr) :
    execAll (i :: is) s = execAll is t := by
  simp only [execAll, h]

/-- The state after the INJECTs of the payloads `ms`. -/
def afterInjects (ms : List (List Byte)) (s : State) : State :=
  { s with ctx := ms.flatten.foldl (absorbByte Config.tables) s.ctx
           rsp := s.rsp ++ List.replicate ms.length ⟨.ok, []⟩ }

/-- INJECTs one after another absorb their joined payloads (`42_sponge.md` R90). -/
theorem execAll_injects {s : State} (hph : s.ctx.phase = .absorbing) (hc : s.ctx.dptr.toNat ≤ 96)
    (ms : List (List Byte)) (rest : List Instr) :
    execAll (ms.map (.inject 0) ++ rest) s = execAll rest (afterInjects ms s) := by
  induction ms generalizing s with
  | nil => simp [afterInjects]
  | cons m ms ih =>
    rw [List.map_cons, List.cons_append, execAll_cons_next (exec_inject_of_absorbing hph hc m),
      ih ((foldl_absorbByte_phase _ m _).trans hph) (foldl_absorbByte_dptr_le hc)]
    simp [afterInjects, emit, setCtx, List.replicate_succ]

/-- EXTRACTs one after another answer pieces of one output (`42_sponge.md` R93). -/
theorem execAll_extracts {s : State} (hph : s.ctx.phase = .squeezing) (hc : s.ctx.dptr.toNat ≤ 96)
    (ns : List (BitVec 16)) :
    ∃ (t : State) (outs : List (List Byte)), execAll (ns.map (.extract 0)) s = .next t ∧
      t.rsp = s.rsp ++ outs.map (fun out => ⟨.ok, out⟩) ∧ outs.map List.length = ns.map BitVec.toNat ∧
      outs.flatten = squeezeOut Config.tables (ns.map BitVec.toNat).sum s.ctx := by
  induction ns generalizing s with
  | nil => exact ⟨s, [], rfl, by simp, rfl, rfl⟩
  | cons n ns ih =>
    obtain ⟨t, outs, hexec, hrsp, hlens, hflat⟩ := ih
      (s := emit ⟨.ok, squeezeOut Config.tables n.toNat s.ctx⟩
        (setCtx ((squeezeNext Config.tables)^[n.toNat] s.ctx) s))
      ((iterate_squeezeNext_phase _ _ _).trans hph) (iterate_squeezeNext_dptr_le hc)
    refine ⟨t, squeezeOut Config.tables n.toNat s.ctx :: outs, ?_, ?_, ?_, ?_⟩
    · rw [List.map_cons, execAll_cons_next (exec_extract_of_squeezing hph hc n), hexec]
    · simp [hrsp]
    · simp [hlens]
    · simp [hflat, squeezeOut_add]

/-- Absorbing from cursor 32 leaves the words that R96 defines block by block. -/
theorem foldl_absorbByte_words {t : Tables} {q : Nat} {m : List Byte} (hq : m.length / 64 = q) {c : Context}
    (hc : c.dptr = 32) : (m.foldl (absorbByte t) c).words = messageState t q c.words m := by
  have hd : c.dptr.toNat = 32 := by rw [hc]; rfl
  induction q generalizing m c with
  | zero =>
    have hfit : c.dptr.toNat + m.length < 96 := by omega
    rw [foldl_absorbByte_window (by omega) hfit.le, refill_of_lt (by rwa [writeBytes_dptr hfit.le])]
    simp only [writeBytes, moveCursor_words, hd]
    rfl
  | succ q ih =>
    have hlen : (m.take 64).length = 64 := List.length_take_of_le (by omega)
    have hblock : (m.take 64).foldl (absorbByte t) c = permuteCtx t (writeBytes (m.take 64) c) := by
      rw [foldl_absorbByte_window (by omega) (by omega), refill_of_full (by rw [writeBytes_dptr] <;> omega)]
    have hwords : (permuteCtx t (writeBytes (m.take 64) c)).words = permute t (overlay c.words (m.take 64)) := by
      simp only [permuteCtx_words, writeBytes, moveCursor_words, hd]
      rfl
    calc (m.foldl (absorbByte t) c).words
        = ((m.drop 64).foldl (absorbByte t) (permuteCtx t (writeBytes (m.take 64) c))).words := by
          rw [← hblock, ← List.foldl_append, List.take_append_drop]
      _ = messageState t (q + 1) c.words m := by
          rw [ih (by rw [List.length_drop]; omega) (permuteCtx_dptr _ _) rfl, hwords]
          rfl

/-- The state in `SQUEEZING` after INIT, the INJECTs of the payloads `ms`, and FLIP. -/
def afterFlip (ms : List (List Byte)) (s : State) : State :=
  { s with ctx := flipContext (ms.flatten.foldl (absorbByte Config.tables) freshContext)
           rsp := s.rsp ++ List.replicate (ms.length + 2) ⟨.ok, []⟩ }

theorem afterFlip_dptr (ms : List (List Byte)) (s : State) : (afterFlip ms s).ctx.dptr.toNat = 96 := rfl

theorem afterFlip_words (ms : List (List Byte)) (s : State) : (afterFlip ms s).ctx.words =
    messageState Config.tables (ms.flatten.length / 64) (Vector.replicate 12 0) ms.flatten :=
  foldl_absorbByte_words rfl freshContext_dptr

theorem execAll_until_flip (ms : List (List Byte)) (rest : List Instr) (s : State) :
    execAll (.init 0 [] :: ms.map (.inject 0) ++ .flip 0 [] :: rest) s = execAll rest (afterFlip ms s) := by
  have hinit : exec (.init 0 []) s = .next (emit ⟨.ok, []⟩ (setCtx freshContext s)) := rfl
  have hflip := exec_flip_of_absorbing (s := afterInjects ms (emit ⟨.ok, []⟩ (setCtx freshContext s)))
    (foldl_absorbByte_phase _ _ freshContext)
  have hcursor : freshContext.dptr.toNat ≤ 96 := by decide
  rw [List.cons_append, execAll_cons_next hinit, execAll_injects freshContext_phase hcursor, execAll_cons_next hflip]
  simp [afterInjects, afterFlip, emit, setCtx, List.replicate_succ, ← List.replicate_succ']

/-- Settles O49: INIT, the INJECTs as one, FLIP, and the EXTRACTs as one. -/
theorem sessionFunction : Obligations.SessionFunction := by
  intro s ms ns
  obtain ⟨t, outs, hexec, hrsp, hlens, hflat⟩ :=
    execAll_extracts (flipContext_phase _) (afterFlip_dptr ms s).le ns
  refine ⟨t, outs, (execAll_until_flip ms _ s).trans hexec, hrsp, hlens, ?_⟩
  rw [hflat, squeezeOut_eq_stream (afterFlip_dptr ms s), afterFlip_words]

/-! ### What changes the context -/

theorem absorb_phase {t : Tables} {data : List Byte} {c c' : Context} (h : absorb t data c = some c') :
    c'.phase = c.phase :=
  absorbLoop_keeps (P := fun d => d.phase = c.phase) (fun _ hd => (absorbChunk_phase _ _ _ _).trans hd) h rfl

theorem squeeze_phase {t : Tables} {n : Nat} {c c' : Context} {out : List Byte} (h : squeeze t n c = some (out, c')) :
    c'.phase = c.phase :=
  squeezeLoop_keeps (P := fun d => d.phase = c.phase) (fun hd => (squeezeChunk_phase _ _ _).trans hd) h rfl

/-- Settles O57, by the effects a command can have. -/
theorem onlySpongeCommandsChangeContext : Obligations.OnlySpongeCommandsChangeContext := by
  intro i s t h
  obtain ⟨r, c, he, rfl⟩ := exec_answers h
  simp only [emit_ctx, setCtx_ctx]
  cases he with
  | fault | stateless => simp
  | init => simp [opcodeOf]
  | inject _ hloop => simp [opcodeOf, absorb_phase hloop]
  | flip hph => simp [opcodeOf, hph]
  | extract _ hloop => simp [opcodeOf, squeeze_phase hloop]

end Sys2Proof.Machine
end

section
/-! Proofs about the faults: what each command reports, by its `ARG`, its `LEN` and the phase, and what a step that
faults leaves alone (`60_exceptions.md`). -/

namespace Sys2Proof.Machine

open Sys2Proof.Safety

/-! ### The first fault that applies, check by check in the order of R104 -/

section FaultOf

variable {i : Instr} {ph : Phase}

theorem faultOf_of_arg_not_allowed (harg : i.argAllowed = false) : faultOf i ph = some .illegalOperand := by
  simp only [faultOf, harg]

theorem faultOf_of_len_not_allowed (harg : i.argAllowed = true) (hlen : i.lenAllowed = false) :
    faultOf i ph = some .badLength := by
  simp only [faultOf, harg, hlen]

theorem faultOf_of_phase_needed {need : Phase} (harg : i.argAllowed = true) (hlen : i.lenAllowed = true)
    (hneed : phaseNeeded i = some need) : faultOf i ph = if ph = need then none else some .illegalState := by
  simp only [faultOf, harg, hlen, hneed]

theorem faultOf_of_no_phase_needed (harg : i.argAllowed = true) (hlen : i.lenAllowed = true)
    (hneed : phaseNeeded i = none) : faultOf i ph = none := by
  simp only [faultOf, harg, hlen, hneed]

end FaultOf

/-! ### What a command reports -/

/-- What a command may answer in a state: the fault the table gives, or, where it gives none, an `OK` response of
R56's length. Nothing is said where the cursor is past the buffer outside `UNINIT`, which no run reaches
(`10_state.md` R19). -/
inductive Reports (i : Instr) (s : State) : Result → Prop where
  | fault {code : FaultCode} : faultOf i s.ctx.phase = some code → Reports i s (raise code s)
  | completes {data : List Byte} (c : Context) : faultOf i s.ctx.phase = none → data.length = responseLength i →
      Reports i s (.next (emit ⟨.ok, data⟩ (setCtx c s)))
  | cursorPast {r : Result} : faultOf i s.ctx.phase = none → s.ctx.phase ≠ .uninit → 96 < s.ctx.dptr.toNat →
      Reports i s r

section Reports

variable {i : Instr} {s : State}

/-! Each check of the header or the phase reports its own fault, or hands on to what follows it. -/

theorem withZeroArg_reports {k : Result} (hiff : i.argAllowed = true ↔ i.arg = 0)
    (hk : i.argAllowed = true → Reports i s k) : Reports i s (withZeroArg i.arg s k) := by
  obtain ⟨h, e⟩ | ⟨h, e⟩ := withZeroArg_cases i.arg s k <;> rw [e]
  · exact hk (hiff.mpr h)
  · exact .fault (faultOf_of_arg_not_allowed (Bool.eq_false_iff.mpr (mt hiff.mp h)))

theorem withLength_reports {n : Nat} {k : Result} (harg : i.argAllowed = true)
    (hiff : i.lenAllowed = true ↔ i.payload.length = n) (hk : i.lenAllowed = true → Reports i s k) :
    Reports i s (withLength n i.payload s k) := by
  obtain ⟨h, e⟩ | ⟨h, e⟩ := withLength_cases n i.payload s k <;> rw [e]
  · exact hk (hiff.mpr h)
  · exact .fault (faultOf_of_len_not_allowed harg (Bool.eq_false_iff.mpr (mt hiff.mp h)))

theorem withPhase_reports {need : Phase} {k : Result} (harg : i.argAllowed = true) (hlen : i.lenAllowed = true)
    (hneed : phaseNeeded i = some need)
    (hk : s.ctx.phase = need → faultOf i s.ctx.phase = none → Reports i s k) : Reports i s (withPhase need s k) := by
  have hfault := faultOf_of_phase_needed (ph := s.ctx.phase) harg hlen hneed
  obtain ⟨h, e⟩ | ⟨h, e⟩ := withPhase_cases need s k <;> rw [e]
  · exact hk h (hfault.trans (if_pos h))
  · exact .fault (hfault.trans (if_neg h))

/-! The lengths the stateless commands' formats allow (`30_encoding.md` R47). -/

theorem lenAllowed_iff_of_scalars (hf : i.format = .scalars) : i.lenAllowed = true ↔ i.payload.length = 16 := by
  simp [Instr.lenAllowed, len_eq_payload_length, allowsLen_true, hf]

theorem lenAllowed_iff_of_vector (hf : i.format = .vector ∨ i.format = .vectorRound) :
    i.lenAllowed = true ↔ i.payload.length = 96 := by
  obtain hf | hf := hf <;> simp [Instr.lenAllowed, len_eq_payload_length, allowsLen_true, hf]

/-! The stateless commands: once the header is well-formed they answer a word or a vector. -/

theorem respond_reports {data : List Byte} (harg : i.argAllowed = true) (hlen : i.lenAllowed = true)
    (hneed : phaseNeeded i = none) (hdata : data.length = responseLength i) : Reports i s (respond data s) :=
  .completes s.ctx (faultOf_of_no_phase_needed harg hlen hneed) hdata

theorem scalars_reports (f : Word → Word → Word) (hf : i.format = .scalars) (hneed : phaseNeeded i = none)
    (hlen : responseLength i = 8) :
    Reports i s (withScalars i.arg i.payload s fun a b => respondWord (f a b) s) :=
  withZeroArg_reports (allowsArg_true_of_ne (by simp [hf]) _) fun harg =>
    withLength_reports harg (lenAllowed_iff_of_scalars hf) fun hl =>
      respond_reports harg hl hneed (hlen ▸ le64inv_length _)

theorem vector_reports (f : Lanes → Lanes) (hf : i.format = .vector) (hneed : phaseNeeded i = none)
    (hlen : responseLength i = 96) :
    Reports i s (withVector i.arg i.payload s fun x => respondLanes (f x) s) :=
  withZeroArg_reports (allowsArg_true_of_ne (by simp [hf]) _) fun harg =>
    withLength_reports harg (lenAllowed_iff_of_vector (.inl hf)) fun hl =>
      respond_reports harg hl hneed (hlen ▸ bufOf_length _)

theorem vectorRound_reports (f : Fin 7 → Lanes → Lanes) (hf : i.format = .vectorRound) (hneed : phaseNeeded i = none)
    (hlen : responseLength i = 96) :
    Reports i s (withVectorRound i.arg i.payload s fun r x => respondLanes (f r x) s) := by
  have harg : i.argAllowed = true ↔ i.arg.toNat ≤ 6 := by rw [Instr.argAllowed, hf, allowsArg_vectorRound_true]
  have hlenIff := lenAllowed_iff_of_vector (.inr hf)
  obtain ⟨r, hr, hl, e⟩ | ⟨hgt, e⟩ | ⟨hle, hl, e⟩ := withVectorRound_cases i.arg i.payload s fun r x =>
    respondLanes (f r x) s <;> rw [e]
  · exact respond_reports (harg.mpr (by omega)) (hlenIff.mpr hl) hneed (hlen ▸ bufOf_length _)
  · exact .fault (faultOf_of_arg_not_allowed (Bool.eq_false_iff.mpr (mt harg.mp (by omega))))
  · exact .fault (faultOf_of_len_not_allowed (harg.mpr hle) (Bool.eq_false_iff.mpr (mt hlenIff.mp hl)))

/-! The two loops complete unless the cursor is past the buffer. -/

theorem finishAbsorb_reports {data : List Byte} (hf : faultOf i s.ctx.phase = none) (hph : s.ctx.phase ≠ .uninit)
    (hlen : responseLength i = 0) : Reports i s (finishAbsorb (absorb Config.tables data s.ctx) s) := by
  obtain hc | hc := Nat.lt_or_ge 96 s.ctx.dptr.toNat
  · exact .cursorPast hf hph hc
  · rw [absorb_eq_foldl hc]
    exact .completes _ hf hlen.symm

theorem finishSqueeze_reports {n : Nat} (hf : faultOf i s.ctx.phase = none) (hph : s.ctx.phase ≠ .uninit)
    (hlen : responseLength i = n) : Reports i s (finishSqueeze (squeeze Config.tables n s.ctx) s) := by
  obtain hc | hc := Nat.lt_or_ge 96 s.ctx.dptr.toNat
  · exact .cursorPast hf hph hc
  · rw [squeeze_eq hc]
    exact .completes _ hf (hlen ▸ squeezeOut_length _ _ _)

end Reports

/-- Every command reports as the table of R102 says, in every state. -/
theorem exec_reports (i : Instr) (s : State) : Reports i s (exec i s) := by
  cases i with
  | fadd => exact scalars_reports fadd rfl rfl rfl
  | fsub => exact scalars_reports fsub rfl rfl rfl
  | fmul => exact scalars_reports fmul rfl rfl rfl
  | fred => exact scalars_reports fred rfl rfl rfl
  | mds => exact vector_reports (mds Config.tables) rfl rfl rfl
  | ark1 => exact vectorRound_reports (ark1 Config.tables) rfl rfl rfl
  | ark2 => exact vectorRound_reports (ark2 Config.tables) rfl rfl rfl
  | sbox => exact vector_reports sbox rfl rfl rfl
  | isbox => exact vector_reports isbox rfl rfl rfl
  | round => exact vectorRound_reports (oneRound Config.tables) rfl rfl rfl
  | perm => exact vector_reports (permute Config.tables) rfl rfl rfl
  | init =>
    exact withZeroArg_reports beq_iff_eq fun harg => withLength_reports harg beq_iff_eq fun hlen =>
      .completes freshContext (faultOf_of_no_phase_needed harg hlen rfl) rfl
  | inject =>
    exact withZeroArg_reports beq_iff_eq fun harg => withPhase_reports harg rfl rfl fun hph hf =>
      finishAbsorb_reports hf (by simp [hph]) rfl
  | flip =>
    exact withZeroArg_reports beq_iff_eq fun harg => withLength_reports harg beq_iff_eq fun hlen =>
      withPhase_reports harg hlen rfl fun _ hf => .completes (flipContext s.ctx) hf rfl
  | extract =>
    exact withZeroArg_reports beq_iff_eq fun harg => withPhase_reports harg rfl rfl fun hph hf =>
      finishSqueeze_reports hf (by simp [hph]) rfl

/-- A command goes on where the cursor is within the buffer, or in `UNINIT`, where no command reads it. -/
theorem exec_goes_on (i : Instr) {s : State} (hc : s.ctx.phase ≠ .uninit → s.ctx.dptr.toNat ≤ 96) :
    ∃ t, exec i s = .next t := by
  generalize exec i s = r, exec_reports i s = h
  cases h with
  | fault => exact ⟨_, rfl⟩
  | completes => exact ⟨_, rfl⟩
  | cursorPast _ hph hpast => exact absurd (hc hph) (by omega)

/-! ### A step that faults -/

/-- Only a fault has a response that is not `OK`. -/
theorem effect_of_status_ne_ok {i : Instr} {c c' : Context} {r : Response} (h : Effect i c r c')
    (hr : r.status ≠ .ok) : c' = c ∧ ∃ code, r = ⟨.fault code, []⟩ := by
  cases h with
  | fault code => exact ⟨rfl, code, rfl⟩
  | stateless | init | inject | flip | extract => exact absurd rfl hr

theorem step_of_status_ne_ok {s t : State} {r : Response} (h : step s = .next t) (hrsp : t.rsp = s.rsp ++ [r])
    (hr : r.status ≠ .ok) : t.ctx = s.ctx ∧ ∃ code, r = ⟨.fault code, []⟩ := by
  obtain ⟨i, rest, -, r', c, he, rfl⟩ | ⟨hd, rest, -, rfl⟩ := step_cases h
  · obtain rfl : r' = r := by simpa using hrsp
    exact effect_of_status_ne_ok he hr
  · obtain rfl : _ = r := by simpa using hrsp
    exact ⟨rfl, _, rfl⟩

/-! ### The statements about faults -/

/-- Settles O9: of what a command may report, only the table's fault agrees with the table. -/
theorem faultsByCommand : Obligations.FaultsByCommand := by
  intro i s c hc
  generalize exec i s = r, exec_reports i s = h
  cases h with
  | fault hf => rw [Option.some.inj (hc.symm.trans hf)]; rfl
  | completes _ hf => cases hc.symm.trans hf
  | cursorPast hf => cases hc.symm.trans hf

/-- Settles O10: of what a command may report, only completion agrees with the table and the cursor. -/
theorem everyLegalCommandCompletes : Obligations.EveryLegalCommandCompletes := by
  intro i s hnone hcursor
  generalize exec i s = r, exec_reports i s = h
  cases h with
  | fault hf => cases hnone.symm.trans hf
  | completes c _ hdata => exact ⟨_, _, rfl, rfl, hdata, rfl, rfl⟩
  | cursorPast _ _ hpast => omega

/-- Settles O11: the response is a fault's, whose four bytes are read off for each code. -/
theorem faultChangesNoState : Obligations.FaultChangesNoState := by
  intro s t r h hrsp hr
  obtain ⟨hctx, code, rfl⟩ := step_of_status_ne_ok h hrsp hr
  refine ⟨hctx, ?_⟩
  cases code with
  | illegalOpcode => exact .inl ⟨rfl, rfl⟩
  | illegalOperand => exact .inr (.inl ⟨rfl, rfl⟩)
  | badLength => exact .inr (.inr (.inl ⟨rfl, rfl⟩))
  | illegalState => exact .inr (.inr (.inr ⟨rfl, rfl⟩))

theorem dptr_le_of_cursorOk {c : Context} (h : CursorOk c) (hph : c.phase ≠ .uninit) : c.dptr.toNat ≤ 96 := by
  cases e : c.phase with
  | uninit => exact absurd e hph
  | absorbing => exact ((cursorOk_iff_of_absorbing e).mp h).2.trans (by decide)
  | squeezing => exact ((cursorOk_iff_of_squeezing e).mp h).2

/-- Settles O56, by what the decoder answers. -/
theorem noStepFaultsTheMachine : Obligations.NoStepFaultsTheMachine := by
  intro s hc
  cases hd : decode s.cmd with
  | command i rest => rw [step_of_command hd]; exact .inl (exec_goes_on i (dptr_le_of_cursorOk hc))
  | illegalOpcode => rw [step_of_illegalOpcode hd]; exact .inl ⟨_, rfl⟩
  | partialRecord => exact .inr (.inr (step_of_partialRecord hd))
  | noRecord => exact .inr (.inl (step_of_noRecord hd))

end Sys2Proof.Machine
end

section
/-! Proofs about what the sponge does not separate: short messages of zeros, which no padding tells apart, and words
that have one residue (`70_reset_and_hazards.md` R118, R120). -/

namespace Sys2Proof.Machine

open Sys2Proof.Safety

/-! ### The session of one message -/

/-- INIT, one INJECT, FLIP and one EXTRACT: the output is the stream from the words that FLIP leaves
(`42_sponge.md` R96). -/
theorem execAll_session (s : State) (m : List Byte) (n : BitVec 16) :
    execAll [.init 0 [], .inject 0 m, .flip 0 [], .extract 0 n] s =
      .next (emit ⟨.ok, stream Config.tables (afterFlip [m] s).ctx.words n.toNat⟩
        (setCtx ((squeezeNext Config.tables)^[n.toNat] (afterFlip [m] s).ctx) (afterFlip [m] s))) := by
  have hextract := exec_extract_of_squeezing (flipContext_phase _) (afterFlip_dptr [m] s).le n
  rw [squeezeOut_eq_stream (afterFlip_dptr [m] s)] at hextract
  exact (execAll_until_flip [m] [.extract 0 n] s).trans (execAll_cons_next hextract [])

/-- FLIP keeps the words only, and forgets how many bytes the last block held (`42_sponge.md` R91, R94). -/
theorem afterFlip_eq_of_words_eq {m m' : List Byte} {s : State}
    (h : (afterFlip [m] s).ctx.words = (afterFlip [m'] s).ctx.words) : afterFlip [m] s = afterFlip [m'] s :=
  congrArg (fun words : Lanes => { afterFlip [m] s with ctx := ⟨words, 96, .squeezing⟩ }) h

/-! ### Short messages of zeros -/

theorem bufOf_zero : bufOf (Vector.replicate 12 0) = List.replicate 96 0 := by decide

/-- Zeros written over zeros that fit in the buffer change nothing. -/
theorem overlay_zero {k : Nat} (hk : k ≤ 64) :
    overlay (Vector.replicate 12 0) (List.replicate k 0) = Vector.replicate 12 0 := by
  have hsum : 32 + k + (96 - (32 + k)) = 96 := by omega
  rw [overlay, bufOf_zero, List.length_replicate, List.take_replicate, List.drop_replicate,
    List.replicate_append_replicate, List.replicate_append_replicate, Nat.min_eq_left (by decide), hsum, ← bufOf_zero,
    lanesOf_bufOf]

theorem afterFlip_words_zero {k : Nat} (hk : k ≤ 63) (s : State) :
    (afterFlip [List.replicate k 0] s).ctx.words = Vector.replicate 12 0 := by
  have hblocks : [List.replicate k (0 : Byte)].flatten.length / 64 = 0 := by simp; omega
  rw [afterFlip_words, hblocks, List.flatten_singleton]
  exact overlay_zero (by omega)

/-- Settles O50: FLIP leaves the zero words from every such message, so the two sessions go on from one state. -/
theorem shortZeroMessagesCollide : Obligations.ShortZeroMessagesCollide := by
  intro s k n hk
  have hempty : (afterFlip [[]] s).ctx.words = Vector.replicate 12 0 := afterFlip_words_zero (Nat.zero_le 63) s
  have hstate : afterFlip [List.replicate k 0] s = afterFlip [[]] s :=
    afterFlip_eq_of_words_eq ((afterFlip_words_zero hk s).trans hempty.symm)
  refine ⟨_, _, execAll_session s [] n, ?_, rfl, rfl⟩
  rw [execAll_session, hstate]

/-! ### Words with one residue -/

theorem residue_residue (w : Word) : residue (residue w) = residue w :=
  eq_of_fieldVal_eq (canonical_residue _) (canonical_residue w) (fieldVal_residue _)

theorem length_append_le64inv (u : List Byte) (w : Word) : (u ++ le64inv w).length = u.length + 8 := by simp

theorem wordAt_append_le64inv {u : List Byte} {i : Nat} (h : 8 * i = u.length) (w : Word) (v : List Byte) :
    wordAt (u ++ le64inv w ++ v) i = w := by
  rw [wordAt, h, List.append_assoc, List.drop_left, List.take_left' (le64inv_length w), le64_le64inv]

/-- An aligned word of an image shows in no other word of it. -/
theorem wordAt_append_le64inv_of_ne {u : List Byte} (hu : u.length % 8 = 0) {i : Nat} (h : 8 * i ≠ u.length)
    (w w' : Word) (v : List Byte) : wordAt (u ++ le64inv w ++ v) i = wordAt (u ++ le64inv w' ++ v) i := by
  obtain hbefore | hafter := Nat.lt_or_gt_of_ne h
  · refine wordAt_eq_of_take_eq (n := u.length) ?_ (by omega)
    rw [List.append_assoc, List.append_assoc, List.take_left, List.take_left]
  · have hdrop : ∀ x, (u ++ le64inv x ++ v).drop (8 * i) = v.drop (8 * i - (u.length + 8)) := fun x => by
      rw [List.drop_append, List.drop_of_length_le (by rw [length_append_le64inv]; omega), length_append_le64inv,
        List.nil_append]
    rw [wordAt, wordAt, hdrop, hdrop]

/-- The residues of a vector do not tell an aligned word of its image from the word's residue. -/
theorem residues_lanesOf_residue {u : List Byte} (hu : u.length % 8 = 0) (w : Word) (v : List Byte) :
    residues (lanesOf (u ++ le64inv (residue w) ++ v)) = residues (lanesOf (u ++ le64inv w ++ v)) := by
  refine Vector.ext fun i hi => ?_
  simp only [getElem_residues, lanesOf, Vector.getElem_ofFn]
  by_cases h : 8 * i = u.length
  · rw [wordAt_append_le64inv h, wordAt_append_le64inv h, residue_residue]
  · rw [wordAt_append_le64inv_of_ne hu h (residue w) w]

/-- The rate begins at a whole word, so an aligned word of a block is an aligned word of the buffer. -/
theorem residues_overlay_residue (z : Lanes) {a : List Byte} (ha : a.length % 8 = 0) (w : Word) (b : List Byte) :
    residues (overlay z (a ++ le64inv (residue w) ++ b)) = residues (overlay z (a ++ le64inv w ++ b)) := by
  have hu : ((bufOf z).take 32 ++ a).length % 8 = 0 := by simp; omega
  have h := residues_lanesOf_residue hu w (b ++ (bufOf z).drop (32 + (a ++ le64inv w ++ b).length))
  simpa [overlay] using h

theorem permute_eq_of_residues_eq {t : Tables} {x y : Lanes} (h : residues x = residues y) :
    permute t x = permute t y := by
  rw [← permute_residues, h, permute_residues]

/-- Block by block: the two messages have the same blocks until the one that holds the word, and after the permutation
of that block the same state (`42_sponge.md` R96; `41_permutation.md` R86). -/
theorem residues_messageState_residue (t : Tables) (q : Nat) (z : Lanes) {a : List Byte} (ha : a.length % 8 = 0)
    (w : Word) (b : List Byte) :
    residues (messageState t q z (a ++ le64inv (residue w) ++ b)) =
      residues (messageState t q z (a ++ le64inv w ++ b)) := by
  induction q generalizing z a with
  | zero => exact residues_overlay_residue z ha w b
  | succ q ih =>
    simp only [messageState]
    by_cases hlong : 64 ≤ a.length
    · have htake : ∀ x, (a ++ le64inv x ++ b).take 64 = a.take 64 := fun x => by
        rw [List.append_assoc, List.take_append_of_le_length hlong]
      have hdrop : ∀ x, (a ++ le64inv x ++ b).drop 64 = a.drop 64 ++ le64inv x ++ b := fun x => by
        rw [List.append_assoc, List.drop_append_of_le_length hlong, List.append_assoc]
      rw [htake, htake, hdrop, hdrop]
      exact ih _ (by rw [List.length_drop]; omega)
    · have hfit : ∀ x, (a ++ le64inv x).length ≤ 64 := fun x => by rw [length_append_le64inv]; omega
      have htake : ∀ x, (a ++ le64inv x ++ b).take 64 = a ++ le64inv x ++ b.take (64 - (a.length + 8)) := fun x => by
        rw [List.take_append, List.take_of_length_le (hfit x), length_append_le64inv]
      have hdrop : ∀ x, (a ++ le64inv x ++ b).drop 64 = b.drop (64 - (a.length + 8)) := fun x => by
        rw [List.drop_append, List.drop_of_length_le (hfit x), length_append_le64inv, List.nil_append]
      rw [htake, htake, hdrop, hdrop, permute_eq_of_residues_eq (residues_overlay_residue z ha w _)]

/-- The stream permutes before its first byte (`42_sponge.md` R93). -/
theorem stream_eq_of_residues_eq {t : Tables} {x y : Lanes} (h : residues x = residues y) (n : Nat) :
    stream t x n = stream t y n := by
  refine List.map_congr_left fun k _ => ?_
  rw [streamByte, streamByte, Function.iterate_succ_apply, Function.iterate_succ_apply, permute_eq_of_residues_eq h]

theorem residues_afterFlip_residue (s : State) {a : List Byte} (ha : a.length % 8 = 0) (w : Word) (b : List Byte) :
    residues (afterFlip [a ++ le64inv (residue w) ++ b] s).ctx.words =
      residues (afterFlip [a ++ le64inv w ++ b] s).ctx.words := by
  have hlen : (a ++ le64inv (residue w) ++ b).length = (a ++ le64inv w ++ b).length := by simp
  rw [afterFlip_words, afterFlip_words, List.flatten_singleton, List.flatten_singleton, hlen]
  exact residues_messageState_residue _ _ _ ha w b

/-- Settles O51: FLIP leaves words with the same residues, from which the stream is the same. -/
theorem residueWordsCollide : Obligations.ResidueWordsCollide := by
  intro s a b w n ha
  refine ⟨_, _, execAll_session s _ n, execAll_session s _ n, ?_⟩
  rw [stream_eq_of_residues_eq (residues_afterFlip_residue s ha w b)]
  rfl

end Sys2Proof.Machine
end
